-- ==== Sys2Proof/Word.lean ====
section
/-!
DEFINITION. The vocabulary of the spec's values: bytes, header words, the storage widths an instance
of the engine may have, and the names of the six causes for which a command is rejected.
-/

namespace Sys2Proof

/-- A byte, 8 bits (spec/00_scope.md R21). -/
abbrev Byte := BitVec 8

/-- A command header word `CMD`, 32 bits (spec/30_encoding.md R90). -/
abbrev Header := BitVec 32

/-- The widest storage width; an operand of CONFIG is held at this width in the syntax, and every
operand lane is at most this wide (spec/00_scope.md R6). -/
abbrev maxWidth : Nat := 128

/-- The storage widths `N` an instance may have (spec/00_scope.md R6). -/
inductive StorageWidth where
  | w8 | w16 | w32 | w64 | w128
deriving DecidableEq, Repr, Inhabited

/-- `N` in bits (spec/00_scope.md R6). -/
def StorageWidth.bits : StorageWidth → Nat
  | .w8 => 8
  | .w16 => 16
  | .w32 => 32
  | .w64 => 64
  | .w128 => 128

/-- The causes of a rejection, in the order of their codes (spec/60_exceptions.md R231). Code 0 (OK) is no
cause and codes 7 to 15 are never produced. -/
inductive Cause where
  /-- the header's OP is reserved (R232) -/
  | illegalOp
  /-- a reserved header bit is 1 (R233(a)) -/
  | reservedField
  /-- the channel number is NACC or more (R233(b)) -/
  | badChannel
  /-- no CONFIG has completed since reset (R234) -/
  | notConfigured
  /-- UPDATE_BITS in reflected mode (R235) -/
  | precondReflect
  /-- UPDATE_BITS with K of 8 or more (R235) -/
  | precondOffset
deriving DecidableEq, Repr, Inhabited

end Sys2Proof
end

