-- ==== Sys2Proof/Config.lean ====
section
/-!
DEFINITION. What an implementation fixes (the parameters of the instance that `State.reset` is) and the
FREE VALUES: constants without a body, of which nothing can be computed or proved. `k` is the value of the
state's `draws` counter, so that each use draws values of its own (log entries 3, 4 and 9).
-/

namespace Sys2Proof

/-- The storage width of the instance that `State.reset` is. DESIGN CHOICE, log entry 1: the spec gives `N` no
default (spec/00_scope.md R6); the width is a field of State and every statement holds for each. -/
def Config.storageWidth : StorageWidth := .w32

/-- The number of channels of the instance that `State.reset` is: the spec's reference value
(spec/00_scope.md R10). -/
def Config.channelCount : Nat := 1

/-- An unspecified POLY (spec/10_state.md R53; after a refusal, R52). -/
opaque Config.freePoly (N k : Nat) : BitVec N
/-- An unspecified OFFSET. -/
opaque Config.freeOffset (N k : Nat) : Nat
/-- An unspecified INIT. -/
opaque Config.freeInit (N k : Nat) : BitVec N
/-- An unspecified XOROUT. -/
opaque Config.freeXorout (N k : Nat) : BitVec N
/-- An unspecified REFLECT. -/
opaque Config.freeReflect (N k : Nat) : Bool
/-- An unspecified TABLE[i]. -/
opaque Config.freeEntry (N k i : Nat) : BitVec N
/-- An unspecified CRC[ch]. -/
opaque Config.freeCrc (N k ch : Nat) : BitVec N
/-- An unspecified ALIGNED[ch]. -/
opaque Config.freeAligned (N k ch : Nat) : Bool
/-- The value of a response to which the spec gives no meaning (spec/10_state.md R52). -/
opaque Config.freeRspValue (N k : Nat) : BitVec N
/-- The code of a response to which the spec gives no meaning (spec/10_state.md R52). -/
opaque Config.freeRspCode (N k : Nat) : BitVec 4
/-- STATUS.CFG_VALID where the spec gives the state no meaning (spec/10_state.md R52). -/
opaque Config.freeCfgValid (N k : Nat) : Bool
/-- STATUS.ERR where the spec gives the state no meaning (spec/10_state.md R52). -/
opaque Config.freeErr (N k : Nat) : Bool
/-- STATUS.CAUSE where the spec gives the state no meaning (spec/10_state.md R52). -/
opaque Config.freeCause (N k : Nat) : BitVec 4

end Sys2Proof
end

