-- ==== Sys2Proof/Syntax.lean ====
section
/-!
DEFINITION. The commands of the engine, one constructor per row of spec/opcode_table.json. A command stands
with its whole payload, as spec/70_reset_and_hazards.md R271 allows.
-/

namespace Sys2Proof

/-- The six commands (spec/30_encoding.md R91) with their operands as the header and the payload give them
(R99, R100). The three operands of CONFIG are `N`-bit beats of the instance's operand lane; `N` is no part of the
syntax, so they stand here at the greatest width and `Instr.WellFormed` says that they fit. -/
inductive Instr where
  /-- CONFIG W, R, poly, init, xorout (spec/40_descriptor.md R130) -/
  | config (width : BitVec 8) (reflect : Bool) (poly init xorout : BitVec maxWidth)
  /-- INIT c<ch> (spec/43_init_finish.md R200) -/
  | init (ch : BitVec 4)
  /-- UPDATE c<ch>, data (spec/41_update.md R160) -/
  | update (ch : BitVec 4) (data : List Byte)
  /-- UPDATE_BITS c<ch>, bits, k (spec/42_update_bits.md R180) -/
  | updateBits (ch : BitVec 4) (bits : Byte) (k : BitVec 4)
  /-- FINISH c<ch> (spec/43_init_finish.md R202) -/
  | finish (ch : BitVec 4)
  /-- TABLE_READ idx (spec/44_table_read.md R220) -/
  | tableRead (idx : Byte)
deriving DecidableEq, Repr

end Sys2Proof
end

