-- ==== Sys2Proof/WellFormed.lean ====
section
/-!
DEFINITION. Which commands an instance of storage width `N` can be sent: those whose operands fit the fields and
lanes of their encoding.
-/

namespace Sys2Proof

/-- The value fits an `n`-bit beat. -/
def fitsLane (n : StorageWidth) (v : BitVec maxWidth) : Bool := decide (v.toNat < 2 ^ n.bits)

/-- The length fits the 24-bit LEN field (spec/30_encoding.md R96, spec/00_scope.md R11). -/
def fitsLen (data : List Byte) : Bool := decide (data.length < 2 ^ 24)

/-- The operands of a command fit its encoding on an instance of storage width `n`: CONFIG's three beats are `N` bits wide
(spec/30_encoding.md R100, R107) and LEN has 24 bits (R96). Every other operand has its field's own width as its
type. What the ENGINE rejects (CH of NACC or more, K of 8 or more) or leaves undefined (W of 0 or above N) is well formed:
it can be encoded and sent (R107). -/
def Instr.WellFormed (n : StorageWidth) : Instr → Bool
  | .config _ _ poly ini xorout => fitsLane n poly && fitsLane n ini && fitsLane n xorout
  | .init _ => true
  | .update _ data => fitsLen data
  | .updateBits _ _ _ => true
  | .finish _ => true
  | .tableRead _ => true

end Sys2Proof
end

