-- ==== Sys2Proof/Decode.lean ====
section
/-!
DEFINITION. The decoder, total on every header word and every payload, and the encoder, both written from
spec/30_encoding.md R91 to R103 and R107.
-/

namespace Sys2Proof

/-! ### The header's fields -/

/-- `CMD[lo+n-1 : lo]`, an unsigned field taken as written (spec/30_encoding.md R99). -/
def headerField (lo n : Nat) (h : Header) : BitVec n := h.extractLsb' lo n

/-- `OP = CMD[3:0]` (spec/30_encoding.md R91). -/
def headerOp (h : Header) : BitVec 4 := headerField 0 4 h

/-- `CH = CMD[7:4]` (spec/30_encoding.md R93). -/
def headerCh (h : Header) : BitVec 4 := headerField 4 4 h

/-- Bits 15:8: WIDTH, BITS or IDX, as the format has it (spec/30_encoding.md R94, R97, R98). -/
def headerByte (h : Header) : BitVec 8 := headerField 8 8 h

/-- `LEN = CMD[31:8]` (spec/30_encoding.md R96). -/
def headerLen (h : Header) : BitVec 24 := headerField 8 24 h

/-- `K = CMD[19:16]` (spec/30_encoding.md R97). -/
def headerK (h : Header) : BitVec 4 := headerField 16 4 h

/-- `REFLECT = CMD[16]` (spec/30_encoding.md R94). -/
def headerReflect (h : Header) : Bool := h.getLsbD 16

/-! ### Opcodes, reserved bits and payload lengths -/

/-- OP of CONFIG (spec/30_encoding.md R91). -/
def opConfig : BitVec 4 := 0x1
/-- OP of INIT (spec/30_encoding.md R91). -/
def opInit : BitVec 4 := 0x2
/-- OP of UPDATE (spec/30_encoding.md R91). -/
def opUpdate : BitVec 4 := 0x3
/-- OP of UPDATE_BITS (spec/30_encoding.md R91). -/
def opUpdateBits : BitVec 4 := 0x4
/-- OP of FINISH (spec/30_encoding.md R91). -/
def opFinish : BitVec 4 := 0x5
/-- OP of TABLE_READ (spec/30_encoding.md R91). -/
def opTableRead : BitVec 4 := 0x6

/-- The reserved bits of format C: 31:17 and 7:4 (spec/30_encoding.md R94). -/
def reservedC : Header := 0xFFFE00F0
/-- The reserved bits of format H: 31:8 (spec/30_encoding.md R95). -/
def reservedH : Header := 0xFFFFFF00
/-- The reserved bits of format B: 31:20 (spec/30_encoding.md R97). -/
def reservedB : Header := 0xFFF00000
/-- The reserved bits of format T: 31:16 and 7:4 (spec/30_encoding.md R98). -/
def reservedT : Header := 0xFFFF00F0

/-- How many operand beats follow the header: OP alone decides it (spec/30_encoding.md R101). -/
def payloadOperands (h : Header) : Nat := if headerOp h = opConfig then 3 else 0

/-- How many byte beats follow the header: LEN for UPDATE, none otherwise (spec/30_encoding.md R101). -/
def payloadBytes (h : Header) : Nat := if headerOp h = opUpdate then (headerLen h).toNat else 0

/-! ### The decoder -/

/-- What a header and the payload beats at hand decode to. -/
inductive Decoded where
  /-- the payload has not all arrived (spec/70_reset_and_hazards.md R271) -/
  | incomplete
  /-- the header is malformed: ILLEGAL_OP or RESERVED_FIELD (spec/30_encoding.md R103) -/
  | rejected (c : Cause)
  /-- one of the six commands -/
  | command (i : Instr)
deriving DecidableEq, Repr

/-- The command `i`, or RESERVED_FIELD where one of the bits of `mask` is 1 in the header
(spec/60_exceptions.md R233(a)). -/
def unlessReserved (mask h : Header) (i : Instr) : Decoded :=
  if h &&& mask = 0 then .command i else .rejected .reservedField

/-- Decode a header with the operand beats and bytes taken for it (spec/30_encoding.md R102). The payload of a rejected
command is taken too (R101), so an incomplete payload is reported before a reserved bit. -/
def decode (h : Header) (operands : List (BitVec maxWidth)) (bytes : List Byte) : Decoded :=
  if headerOp h = opConfig then
    match operands with
    | poly :: init :: xorout :: _ =>
      unlessReserved reservedC h (.config (headerByte h) (headerReflect h) poly init xorout)
    | _ => .incomplete
  else if headerOp h = opInit then unlessReserved reservedH h (.init (headerCh h))
  else if headerOp h = opUpdate then
    if bytes.length < payloadBytes h then .incomplete
    else .command (.update (headerCh h) (bytes.take (payloadBytes h)))
  else if headerOp h = opUpdateBits then
    unlessReserved reservedB h (.updateBits (headerCh h) (headerByte h) (headerK h))
  else if headerOp h = opFinish then unlessReserved reservedH h (.finish (headerCh h))
  else if headerOp h = opTableRead then unlessReserved reservedT h (.tableRead (headerByte h))
  else .rejected .illegalOp

/-! ### The encoder -/

/-- The words a host sends for one command (spec/30_encoding.md R90). -/
structure Words where
  /-- the header word -/
  header : Header
  /-- CONFIG's operand beats, in order (R100) -/
  operands : List (BitVec maxWidth)
  /-- UPDATE's data bytes, in order (R96) -/
  bytes : List Byte
deriving DecidableEq, Repr

/-- A field's value at its place in the header (the `<<` of spec/30_encoding.md R107). -/
def placeField {n : Nat} (lo : Nat) (v : BitVec n) : Header := v.setWidth 32 <<< lo

/-- The words of a command (the column "encodes" of spec/30_encoding.md R107). -/
def encode : Instr → Words
  | .config w r poly init xorout =>
    { header := placeField 0 opConfig ||| placeField 8 w ||| placeField 16 (BitVec.ofBool r)
      operands := [poly, init, xorout]
      bytes := [] }
  | .init ch => { header := placeField 0 opInit ||| placeField 4 ch, operands := [], bytes := [] }
  | .update ch data =>
    { header := placeField 0 opUpdate ||| placeField 4 ch ||| placeField 8 (BitVec.ofNat 24 data.length)
      operands := []
      bytes := data }
  | .updateBits ch bits k =>
    { header := placeField 0 opUpdateBits ||| placeField 4 ch ||| placeField 8 bits ||| placeField 16 k
      operands := []
      bytes := [] }
  | .finish ch => { header := placeField 0 opFinish ||| placeField 4 ch, operands := [], bytes := [] }
  | .tableRead idx => { header := placeField 0 opTableRead ||| placeField 8 idx, operands := [], bytes := [] }

/-! ### A command as one number -/

/-- `count` beats of `n` bits each, the first in the least significant bits of `p`. -/
def beatsOf (n : Nat) : Nat → Nat → List (BitVec n)
  | 0, _ => []
  | count + 1, p => BitVec.ofNat n p :: beatsOf n count (p >>> n)

/-- The header in the 32 least significant bits of a command written as one number. -/
def tableHeader (nbits w : Nat) : Header := BitVec.ofNat 32 (w % 2 ^ nbits)

/-- The operand beats of `N` bits that follow that header in the number (zeros above bit `nbits`). -/
def tableOperands (N nbits w : Nat) : List (BitVec N) :=
  beatsOf N (payloadOperands (tableHeader nbits w)) ((w % 2 ^ nbits) >>> 32)

/-- The data bytes that follow that header in the number (zeros above bit `nbits`). -/
def tableBytes (nbits w : Nat) : List Byte :=
  beatsOf 8 (payloadBytes (tableHeader nbits w)) ((w % 2 ^ nbits) >>> 32)

/-- The command the decoder reads from an instruction whose bits are `w`, numbered as spec/opcode_table.json numbers
them: the header is the first word and the payload beats follow; every bit above `nbits` is 0. -/
def decodeTableWord (nbits w : Nat) : Option Instr :=
  match decode (tableHeader nbits w)
      ((tableOperands Config.storageWidth.bits nbits w).map (BitVec.setWidth maxWidth)) (tableBytes nbits w) with
  | .command i => some i
  | .rejected _ => none
  | .incomplete => none

end Sys2Proof
end

