-- ==== Sys2Proof/Machine/State.lean ====
section
/-!
DEFINITION. The state of the engine: every element of spec/10_state.md, the command in flight, the input side of
the ports, and the instance's parameters. Plain data throughout.
-/

namespace Sys2Proof.Machine

/-- The descriptor registers and the table (spec/10_state.md R30 to R37), shared by all channels. There is no `W`
register: `W` is `N - OFFSET` (R36). -/
structure Descriptor (N : Nat) where
  /-- POLY, pre-transformed (R30) -/
  poly : BitVec N
  /-- OFFSET, an integer (R31) -/
  offset : Nat
  /-- INIT, pre-transformed in reflected mode (R32) -/
  init : BitVec N
  /-- XOROUT (R33) -/
  xorout : BitVec N
  /-- REFLECT (R34) -/
  reflect : Bool
  /-- TABLE[0..255] (R37, spec/00_scope.md R9) -/
  table : Vector (BitVec N) 256
deriving DecidableEq, Repr

/-- One accumulator channel (spec/10_state.md R38, R39). -/
structure Channel (N : Nat) where
  /-- CRC[ch], the running register -/
  crc : BitVec N
  /-- ALIGNED[ch]: the non-reflected shift by OFFSET has been applied in this message -/
  aligned : Bool
deriving DecidableEq, Repr

/-- One response `(RSP_CODE, RSP_VALUE)` (spec/30_encoding.md R104). -/
structure Response (N : Nat) where
  /-- RSP_CODE, 4 bits (spec/60_exceptions.md R231) -/
  code : BitVec 4
  /-- RSP_VALUE, `N` bits, never masked to `W` -/
  value : BitVec N
deriving DecidableEq, Repr

/-- A command in flight: its header has been accepted and its payload has not all arrived
(spec/10_state.md R51). -/
structure Flight (N : Nat) where
  /-- the accepted header -/
  header : Header
  /-- the operand beats taken so far -/
  operands : List (BitVec N)
  /-- the data bytes taken so far -/
  bytes : List Byte
deriving DecidableEq, Repr

/-- The engine of storage width `N`. NACC is the length of `channels` (spec/00_scope.md R10). -/
structure Engine (N : Nat) where
  /-- POLY, OFFSET, INIT, XOROUT, REFLECT, TABLE -/
  desc : Descriptor N
  /-- CRC[ch] and ALIGNED[ch], channel 0 first -/
  channels : List (Channel N)
  /-- STATUS.CFG_VALID (spec/10_state.md R43) -/
  cfgValid : Bool
  /-- STATUS.ERR, sticky (R44) -/
  err : Bool
  /-- STATUS.CAUSE, sticky (R45) -/
  cause : BitVec 4
  /-- the responses since the last reset, oldest first (R46) -/
  responses : List (Response N)
  /-- REFUSED, the spec's mark that nothing later has a meaning (R52) -/
  refused : Bool
  /-- the command in flight, if one is (R51) -/
  flight : Option (Flight N)
  /-- the reset input is asserted (spec/30_encoding.md R106) -/
  resetLine : Bool
  /-- header words presented on the command port and not yet taken -/
  commandLane : List Header
  /-- beats presented on the operand port and not yet taken -/
  operandLane : List (BitVec N)
  /-- beats presented on the byte port and not yet taken -/
  byteLane : List Byte
  /-- the model's own field: the number of the next draw of free values (log entry 9) -/
  draws : Nat
deriving DecidableEq, Repr

/-- The state: an instance's storage width and its engine. -/
structure State where
  /-- `N` (spec/00_scope.md R6); fixed for the instance -/
  width : StorageWidth
  /-- everything the spec gives the engine -/
  engine : Engine width.bits
deriving DecidableEq, Repr

/-- Why a step stops with a fault: it never does. The engine has no trap, and a command that fails a check is
REJECTED, which is a next state (spec/60_exceptions.md R230, R251(a)); so this type has no constructor, which is safe. -/
inductive Fault where
deriving DecidableEq, Repr

/-- Why a step has no meaning in the model. -/
inductive Refusal where
  /-- raised by an arm of `exec` whose command has no meaning yet; no arm does. Safe: the model stops. -/
  | notModelled (mnemonic : String)
deriving DecidableEq, Repr

/-- A descriptor of unspecified contents (spec/10_state.md R53, R52): draw `k` of the free values (log entry 3). OFFSET keeps
the range the spec gives the register, 0 to `N - 1` (R31). -/
def Descriptor.unspecified (N k : Nat) : Descriptor N where
  poly := Config.freePoly N k
  offset := Config.freeOffset N k % N
  init := Config.freeInit N k
  xorout := Config.freeXorout N k
  reflect := Config.freeReflect N k
  table := Vector.ofFn fun i => Config.freeEntry N k i.val

/-- `count` channels of unspecified contents (spec/10_state.md R53, R52). -/
def unspecifiedChannels (N k count : Nat) : List (Channel N) :=
  (List.range count).map fun ch => ⟨Config.freeCrc N k ch, Config.freeAligned N k ch⟩

/-- The engine right after reset (spec/10_state.md R53): STATUS is 0, the response stream is empty, REFUSED is false, nothing
is in flight and nothing is presented on the ports; the descriptor, the table and the channels are unspecified: they hold draw 0
of the free values, and the next draw is number 1 (DESIGN CHOICE, log entries 3 and 9). -/
def Engine.reset (N nacc : Nat) : Engine N where
  desc := Descriptor.unspecified N 0
  channels := unspecifiedChannels N 0 nacc
  cfgValid := false
  err := false
  cause := 0
  responses := []
  refused := false
  flight := none
  resetLine := false
  commandLane := []
  operandLane := []
  byteLane := []
  draws := 1

/-- The instance of storage width `n` with `nacc` channels, right after reset. -/
def State.resetOf (n : StorageWidth) (nacc : Nat) : State := ⟨n, Engine.reset n.bits nacc⟩

/-- The machine right after reset, for the instance of `Config` (log entry 1). -/
def State.reset : State := State.resetOf Config.storageWidth Config.channelCount

end Sys2Proof.Machine
end

