-- ==== Sys2Proof/Machine/Flags.lean ====
section
/-!
DEFINITION. The STATUS register and the response codes. The engine has no condition codes and no arithmetic flags
(spec/10_state.md R49); its flags are STATUS.CFG_VALID, STATUS.ERR and STATUS.CAUSE.
-/

namespace Sys2Proof.Machine

/-- The code of an accepted command (spec/60_exceptions.md R231). -/
def codeOk : BitVec 4 := 0

/-- The code of a cause (spec/60_exceptions.md R231). -/
def causeCode : Cause → BitVec 4
  | .illegalOp => 1
  | .reservedField => 2
  | .badChannel => 3
  | .notConfigured => 4
  | .precondReflect => 5
  | .precondOffset => 6

/-- The 32-bit STATUS word the host reads between commands, with no side effect: bit 0 CFG_VALID, bit 1 ERR, bits 7:4
CAUSE, every other bit 0 (spec/10_state.md R42). -/
def Engine.status {N : Nat} (e : Engine N) : BitVec 32 :=
  (BitVec.ofBool e.cfgValid).setWidth 32 ||| ((BitVec.ofBool e.err).setWidth 32 <<< 1)
    ||| (e.cause.setWidth 32 <<< 4)

/-- STATUS of a machine. -/
def State.status (s : State) : BitVec 32 := s.engine.status

/-- The STATUS update of a raise: CAUSE takes the code only if ERR was 0, and ERR is set
(spec/60_exceptions.md R236, spec/10_state.md R44, R45). -/
def Engine.recordError {N : Nat} (e : Engine N) (c : Cause) : Engine N :=
  { e with err := true, cause := if e.err then e.cause else causeCode c }

end Sys2Proof.Machine
end

