-- ==== Sys2Proof/Machine/Operands.lean ====
section
/-!
DEFINITION. The arithmetic of the datapaths: the primitives of spec/00_scope.md R13 to R16, the two single-bit division
steps, table generation, the two byte steps, the bit-level unit and CONFIG's operand transforms. In this file
`v <<< s` on a `BitVec N` is the spec's `shl_N(v, s)` and `v >>> s` is `shr(v, s)`, both 0 for `s` of `N` or more (R14);
`v ^^^ w` is its `v ^ w`.
-/

namespace Sys2Proof.Machine

/-! ### Primitives -/

/-- `rev_N(v)`: bit `i` of the result is bit `N - 1 - i` of `v` (spec/00_scope.md R15). -/
def rev {N : Nat} (v : BitVec N) : BitVec N := v.reverse

/-- `lowbyte(v) = v[7:0]` (spec/00_scope.md R16). -/
def lowByte {N : Nat} (v : BitVec N) : Byte := v.setWidth 8

/-- `highbyte_N(v) = v[N-1:N-8]` (spec/00_scope.md R16). -/
def highByte {N : Nat} (v : BitVec N) : Byte := (v >>> (N - 8)).setWidth 8

/-- `zext_N(b)`: a byte in the low byte of an `N`-bit value (spec/00_scope.md R13). -/
def inLowByte (N : Nat) (b : Byte) : BitVec N := b.setWidth N

/-- `shl_N(zext_N(b), N - 8)`: a byte in the top byte of an `N`-bit value (spec/40_descriptor.md R139). -/
def inTopByte (N : Nat) (b : Byte) : BitVec N := (b.setWidth N) <<< (N - 8)

/-- An operand beat as the `N`-bit value the lane carries (spec/30_encoding.md R100). -/
def laneValue (N : Nat) (v : BitVec maxWidth) : BitVec N := v.setWidth N

/-! ### Single-bit division steps -/

/-- `BITSTEP_R`: one least-significant-bit-first step (spec/40_descriptor.md R138, spec/41_update.md R169). -/
def bitStepR {N : Nat} (poly v : BitVec N) : BitVec N :=
  if v.getLsbD 0 then (v >>> 1) ^^^ poly else v >>> 1

/-- `BITSTEP_NR`: one most-significant-bit-first step (spec/40_descriptor.md R139, spec/42_update_bits.md R184). -/
def bitStepNR {N : Nat} (poly v : BitVec N) : BitVec N :=
  if v.getLsbD (N - 1) then (v <<< 1) ^^^ poly else v <<< 1

/-- The step of the datapath that REFLECT chooses. -/
def bitStep {N : Nat} (reflect : Bool) (poly v : BitVec N) : BitVec N :=
  if reflect then bitStepR poly v else bitStepNR poly v

/-- `k` steps in a row. -/
def bitSteps {N : Nat} (reflect : Bool) (poly : BitVec N) : Nat → BitVec N → BitVec N
  | 0, v => v
  | k + 1, v => bitSteps reflect poly k (bitStep reflect poly v)

/-- A byte where the datapath's first step meets its first message bit: the low byte in reflected mode, the top byte
otherwise (spec/40_descriptor.md R138, R139). -/
def placeByte (N : Nat) (reflect : Bool) (b : Byte) : BitVec N :=
  if reflect then inLowByte N b else inTopByte N b

/-! ### CONFIG's transforms and the table -/

/-- The POLY transform (spec/40_descriptor.md R133). -/
def transformPoly {N : Nat} (reflect : Bool) (offset : Nat) (poly : BitVec N) : BitVec N :=
  if reflect then rev (poly <<< offset) else poly <<< offset

/-- The INIT transform (spec/40_descriptor.md R134). -/
def transformInit {N : Nat} (reflect : Bool) (offset : Nat) (init : BitVec N) : BitVec N :=
  if reflect then rev init >>> offset else init

/-- `GEN(i)` (spec/40_descriptor.md R138, R139). -/
def gen {N : Nat} (reflect : Bool) (poly : BitVec N) (i : Byte) : BitVec N :=
  bitSteps reflect poly 8 (placeByte N reflect i)

/-- The filled table (spec/40_descriptor.md R137). -/
def genTable {N : Nat} (reflect : Bool) (poly : BitVec N) : Vector (BitVec N) 256 :=
  Vector.ofFn fun i => gen reflect poly (BitVec.ofNat 8 i.val)

/-- The descriptor that a CONFIG of legal width `W` builds (spec/40_descriptor.md R130). -/
def Descriptor.build {N : Nat} (W : Nat) (reflect : Bool) (poly init xorout : BitVec N) : Descriptor N where
  poly := transformPoly reflect (N - W) poly
  offset := N - W
  init := transformInit reflect (N - W) init
  xorout := xorout
  reflect := reflect
  table := genTable reflect (transformPoly reflect (N - W) poly)

/-- `TABLE[i]`; every byte is an index (spec/20_memory.md R74). -/
def Descriptor.entry {N : Nat} (d : Descriptor N) (i : Byte) : BitVec N := d.table[i.toNat]'i.isLt

/-! ### Feeding a channel -/

/-- A channel just loaded from INIT, as CONFIG and INIT leave it (spec/40_descriptor.md R140, spec/43_init_finish.md
R200). -/
def Descriptor.freshChannel {N : Nat} (d : Descriptor N) : Channel N := ⟨d.init, false⟩

/-- The reflected byte step (spec/41_update.md R161). -/
def Descriptor.byteStepR {N : Nat} (d : Descriptor N) (crc : BitVec N) (b : Byte) : BitVec N :=
  (crc >>> 8) ^^^ d.entry (lowByte crc ^^^ b)

/-- The non-reflected byte step (spec/41_update.md R163). -/
def Descriptor.byteStepNR {N : Nat} (d : Descriptor N) (crc : BitVec N) (b : Byte) : BitVec N :=
  (crc <<< 8) ^^^ d.entry (highByte crc ^^^ b)

/-- The non-reflected alignment, applied once per message (spec/41_update.md R162, spec/42_update_bits.md R183). -/
def Descriptor.align {N : Nat} (d : Descriptor N) (c : Channel N) : Channel N :=
  if c.aligned then c else ⟨c.crc <<< d.offset, true⟩

/-- A channel after the bytes of one UPDATE; no bytes change nothing (spec/41_update.md R160, R164). -/
def Descriptor.feedBytes {N : Nat} (d : Descriptor N) (c : Channel N) (data : List Byte) : Channel N :=
  if data = [] then c
  else if d.reflect then ⟨data.foldl d.byteStepR c.crc, c.aligned⟩
  else ⟨data.foldl d.byteStepNR (d.align c).crc, true⟩

/-- The message bits of a partial byte: the low `k` bits cleared (spec/42_update_bits.md R182). -/
def partialByte (bits : Byte) (k : Nat) : Byte := bits &&& ((0xFF : Byte) <<< k)

/-- A channel after the partial byte of one UPDATE_BITS with `k` below 8 (spec/42_update_bits.md R183, R184). -/
def Descriptor.feedBits {N : Nat} (d : Descriptor N) (c : Channel N) (bits : Byte) (k : Nat) : Channel N :=
  ⟨bitSteps false d.poly (8 - k) ((d.align c).crc ^^^ inTopByte N (partialByte bits k)), true⟩

/-- `FIN`: the finished value of a channel, which it does not change (spec/43_init_finish.md R201). -/
def Descriptor.fin {N : Nat} (d : Descriptor N) (c : Channel N) : BitVec N :=
  if d.reflect then c.crc ^^^ d.xorout
  else ((d.align c).crc >>> d.offset) ^^^ d.xorout

end Sys2Proof.Machine
end

