-- ==== Sys2Proof/Machine/Ops.lean ====
section
/-!
DEFINITION. The named operations on the engine that the commands share: responding, rejecting a command (the
engine's one error mechanism), the checks of spec/60_exceptions.md R237 that need the engine's state, the refusal of
an invalid width, and reset.
-/

namespace Sys2Proof.Machine

/-! ### Responses and rejection -/

/-- `respond(code, value)`: one response at the end of the stream (spec/00_scope.md R18, spec/10_state.md R46). -/
def Engine.respond {N : Nat} (e : Engine N) (code : BitVec 4) (value : BitVec N) : Engine N :=
  { e with responses := e.responses ++ [⟨code, value⟩] }

/-- `respond(OK, value)`. -/
def Engine.respondOk {N : Nat} (e : Engine N) (value : BitVec N) : Engine N := e.respond codeOk value

/-- `raise(cause)`: the command is rejected. STATUS records the cause, the response is (code, 0), and nothing else is
written; there is no saved state, no mode and no transfer of control (spec/60_exceptions.md R236). -/
def Engine.raise {N : Nat} (e : Engine N) (c : Cause) : Engine N :=
  (e.recordError c).respond (causeCode c) 0

/-! ### Channels -/

/-- NACC (spec/00_scope.md R10). -/
def Engine.nacc {N : Nat} (e : Engine N) : Nat := e.channels.length

/-- Channel `ch`; none where `ch` is NACC or more. -/
def Engine.channel? {N : Nat} (e : Engine N) (ch : BitVec 4) : Option (Channel N) := e.channels[ch.toNat]?

/-- Write channel `ch` and no other (spec/20_memory.md R81). -/
def Engine.setChannel {N : Nat} (e : Engine N) (ch : BitVec 4) (c : Channel N) : Engine N :=
  { e with channels := e.channels.set ch.toNat c }

/-! ### The checks that read the engine's state -/

/-- The engine `k`, or NOT_CONFIGURED where no CONFIG has completed since reset (spec/60_exceptions.md R234). -/
def Engine.whenConfigured {N : Nat} (e k : Engine N) : Engine N :=
  if e.cfgValid then k else e.raise .notConfigured

/-- Run `k` on channel `ch`, or reject with BAD_CHANNEL, then NOT_CONFIGURED, in the order of
spec/60_exceptions.md R237. -/
def Engine.withChannel {N : Nat} (e : Engine N) (ch : BitVec 4) (k : Channel N → Engine N) : Engine N :=
  match e.channel? ch with
  | none => e.raise .badChannel
  | some c => e.whenConfigured (k c)

/-! ### What has no meaning -/

/-- A command executed after a refusal: one response, and every register, STATUS field and response value is a free
value, for the spec gives them no meaning (spec/10_state.md R52; log entry 4). -/
def Engine.noMeaning {N : Nat} (e : Engine N) : Engine N :=
  { e with
    desc := Descriptor.unspecified N e.draws
    channels := unspecifiedChannels N e.draws e.nacc
    cfgValid := Config.freeCfgValid N e.draws
    err := Config.freeErr N e.draws
    cause := Config.freeCause N e.draws
    responses := e.responses ++ [⟨Config.freeRspCode N e.draws, Config.freeRspValue N e.draws⟩]
    draws := e.draws + 1 }

/-- `refuse(INVALID_WIDTH)`: the mark is set and what CONFIG writes is unspecified; CFG_VALID is set (spec/10_state.md
R43), ERR and CAUSE are not touched and no error code is reported (spec/40_descriptor.md R135, spec/60_exceptions.md
R242; log entry 4). -/
def Engine.refuseInvalidWidth {N : Nat} (e : Engine N) : Engine N :=
  { e with
    desc := Descriptor.unspecified N e.draws
    channels := unspecifiedChannels N e.draws e.nacc
    cfgValid := true
    responses := e.responses ++ [⟨codeOk, Config.freeRspValue N e.draws⟩]
    refused := true
    draws := e.draws + 1 }

/-! ### CONFIG's effect and reset -/

/-- CONFIG completes with the descriptor `d`: the descriptor and table are replaced whole, every channel is loaded from the
new INIT, CFG_VALID is set and ERR and CAUSE stay (spec/40_descriptor.md R140, R141). -/
def Engine.configure {N : Nat} (e : Engine N) (d : Descriptor N) : Engine N :=
  { e with
    desc := d
    channels := e.channels.map fun _ => d.freshChannel
    cfgValid := true }

/-- Reset, one atomic step (spec/70_reset_and_hazards.md R260): a command in flight is abandoned with the beats already taken,
STATUS and the response stream are cleared, every register is unspecified, REFUSED stays; the reset input is taken, and beats
not yet taken stay on their lanes (DEDUCED, log entry 5). That the unspecified registers hold the next draw of the free values, one
that neither power-on nor an earlier reset of the run has used, is the model's own way of leaving them unspecified (DESIGN CHOICE,
log entries 3 and 9). -/
def Engine.resetNow {N : Nat} (e : Engine N) : Engine N :=
  { e with
    desc := Descriptor.unspecified N e.draws
    channels := unspecifiedChannels N e.draws e.nacc
    cfgValid := false
    err := false
    cause := 0
    responses := []
    flight := none
    resetLine := false
    draws := e.draws + 1 }

/-! ### On a machine -/

/-- Apply a function of the engine; the storage width stays. -/
def State.mapEngine (s : State) (f : Engine s.width.bits → Engine s.width.bits) : State := ⟨s.width, f s.engine⟩

/-- Execute a command with the effect `f`: while REFUSED is true it has no meaning (spec/10_state.md R52), otherwise its
effect is `f`. -/
def Engine.perform {N : Nat} (e : Engine N) (f : Engine N → Engine N) : Engine N :=
  if e.refused then e.noMeaning else f e

/-- Execute a command with the effect `f` on a machine. Every command ends in a next state. -/
def State.perform (s : State) (f : Engine s.width.bits → Engine s.width.bits) : Host.Outcome State Fault Refusal :=
  .next (s.mapEngine fun e => e.perform f)

end Sys2Proof.Machine
end

