-- ==== Sys2Proof/Machine/Configure.lean ====
section
/-!
DEFINITION. The meaning of CONFIG (spec/40_descriptor.md).
-/

namespace Sys2Proof.Machine

/-- The effect of CONFIG (spec/40_descriptor.md R130). A width of 0 or above `N` is refused, not rejected (R135). -/
def Engine.config {N : Nat} (e : Engine N) (W : Nat) (reflect : Bool) (poly init xorout : BitVec N) : Engine N :=
  if W = 0 ∨ N < W then e.refuseInvalidWidth
  else (e.configure (Descriptor.build W reflect poly init xorout)).respondOk 0

/-- CONFIG W, R, poly, init, xorout. A nonzero reserved bit was rejected by the decoder; no other check applies
(spec/60_exceptions.md R237). -/
def execConfig (width : BitVec 8) (reflect : Bool) (poly init xorout : BitVec maxWidth) (s : State) :
    Host.Outcome State Fault Refusal :=
  s.perform fun e => e.config width.toNat reflect (laneValue _ poly) (laneValue _ init) (laneValue _ xorout)

end Sys2Proof.Machine
end

