-- ==== Sys2Proof/Machine/InitFinish.lean ====
section
/-!
DEFINITION. The meanings of INIT and FINISH (spec/43_init_finish.md).
-/

namespace Sys2Proof.Machine

/-- The effect of INIT (spec/43_init_finish.md R200). -/
def Engine.init {N : Nat} (e : Engine N) (ch : BitVec 4) : Engine N :=
  e.withChannel ch fun _ => (e.setChannel ch e.desc.freshChannel).respondOk 0

/-- The effect of FINISH (spec/43_init_finish.md R202). -/
def Engine.finish {N : Nat} (e : Engine N) (ch : BitVec 4) : Engine N :=
  e.withChannel ch fun c => e.respondOk (e.desc.fin c)

/-- INIT c<ch>. -/
def execInit (ch : BitVec 4) (s : State) : Host.Outcome State Fault Refusal :=
  s.perform fun e => e.init ch

/-- FINISH c<ch>. -/
def execFinish (ch : BitVec 4) (s : State) : Host.Outcome State Fault Refusal :=
  s.perform fun e => e.finish ch

end Sys2Proof.Machine
end

