-- ==== Sys2Proof/Machine/TableRead.lean ====
section
/-!
DEFINITION. The meaning of TABLE_READ (spec/44_table_read.md).
-/

namespace Sys2Proof.Machine

/-- The effect of TABLE_READ: the entry as stored, not passed through FIN (spec/44_table_read.md R220, R222(c)). -/
def Engine.tableRead {N : Nat} (e : Engine N) (idx : Byte) : Engine N :=
  e.whenConfigured (e.respondOk (e.desc.entry idx))

/-- TABLE_READ idx. -/
def execTableRead (idx : Byte) (s : State) : Host.Outcome State Fault Refusal :=
  s.perform fun e => e.tableRead idx

end Sys2Proof.Machine
end

