-- ==== Sys2Proof/Machine/Update.lean ====
section
/-!
DEFINITION. The meanings of UPDATE (spec/41_update.md) and UPDATE_BITS (spec/42_update_bits.md).
-/

namespace Sys2Proof.Machine

/-- Channel `ch` becomes `c`, and the response is its finished value (spec/41_update.md R165, spec/42_update_bits.md R185). -/
def Engine.storeAndFinish {N : Nat} (e : Engine N) (ch : BitVec 4) (c : Channel N) : Engine N :=
  (e.setChannel ch c).respondOk (e.desc.fin c)

/-- The effect of UPDATE (spec/41_update.md R160). -/
def Engine.update {N : Nat} (e : Engine N) (ch : BitVec 4) (data : List Byte) : Engine N :=
  e.withChannel ch fun c => e.storeAndFinish ch (e.desc.feedBytes c data)

/-- The effect of UPDATE_BITS, its two preconditions in their order (spec/42_update_bits.md R180, R181). -/
def Engine.updateBits {N : Nat} (e : Engine N) (ch : BitVec 4) (bits : Byte) (k : BitVec 4) : Engine N :=
  e.withChannel ch fun c =>
    if e.desc.reflect then e.raise .precondReflect
    else if 8 ≤ k.toNat then e.raise .precondOffset
    else e.storeAndFinish ch (e.desc.feedBits c bits k.toNat)

/-- UPDATE c<ch>, data. -/
def execUpdate (ch : BitVec 4) (data : List Byte) (s : State) : Host.Outcome State Fault Refusal :=
  s.perform fun e => e.update ch data

/-- UPDATE_BITS c<ch>, bits, k. -/
def execUpdateBits (ch : BitVec 4) (bits : Byte) (k : BitVec 4) (s : State) : Host.Outcome State Fault Refusal :=
  s.perform fun e => e.updateBits ch bits k

end Sys2Proof.Machine
end

