-- ==== Sys2Proof/Machine/Dispatch.lean ====
section
/-!
DEFINITION. One arm per command.
-/

namespace Sys2Proof.Machine

def exec (i : Instr) (s : State) : Host.Outcome State Fault Refusal :=
  match i with
  | .config width reflect poly ini xorout => Sys2Proof.Machine.execConfig width reflect poly ini xorout s
  | .init ch => Sys2Proof.Machine.execInit ch s
  | .update ch data => Sys2Proof.Machine.execUpdate ch data s
  | .updateBits ch bits k => Sys2Proof.Machine.execUpdateBits ch bits k s
  | .finish ch => Sys2Proof.Machine.execFinish ch s
  | .tableRead idx => Sys2Proof.Machine.execTableRead idx s

end Sys2Proof.Machine
end

