-- ==== Sys2Proof/Machine/Port.lean ====
section
/-!
DEFINITION. How the engine takes a command from its ports: the header, then the whole payload its opcode calls for
(spec/30_encoding.md R90, R101), the command in flight between the two (spec/70_reset_and_hazards.md R271), and the
host's side of the ports.
-/

namespace Sys2Proof.Machine

/-- What a step finds on the input ports, with the engine after taking it. -/
inductive Received (N : Nat) where
  /-- reset, or nothing to execute yet: `e` is the engine after the step -/
  | idle (e : Engine N)
  /-- a complete command whose header is malformed; its payload has been taken -/
  | rejected (c : Cause) (e : Engine N)
  /-- a complete command; its words have been taken -/
  | command (i : Instr) (e : Engine N)
deriving DecidableEq, Repr

/-- Operand beats as the decoder reads them. -/
def widenBeats {N : Nat} (beats : List (BitVec N)) : List (BitVec maxWidth) := beats.map (BitVec.setWidth maxWidth)

/-- The operand beats that the header in flight still lacks. -/
def Flight.lacksOperands {N : Nat} (f : Flight N) : Nat := payloadOperands f.header - f.operands.length

/-- The data bytes that the header in flight still lacks. -/
def Flight.lacksBytes {N : Nat} (f : Flight N) : Nat := payloadBytes f.header - f.bytes.length

/-- The command in flight with the beats it lacks, as far as the lanes hold them. -/
def Engine.filled {N : Nat} (e : Engine N) (f : Flight N) : Flight N where
  header := f.header
  operands := f.operands ++ e.operandLane.take f.lacksOperands
  bytes := f.bytes ++ e.byteLane.take f.lacksBytes

/-- The engine with those beats taken from the lanes and nothing in flight. -/
def Engine.drained {N : Nat} (e : Engine N) (f : Flight N) : Engine N :=
  { e with
    flight := none
    operandLane := e.operandLane.drop f.lacksOperands
    byteLane := e.byteLane.drop f.lacksBytes }

/-- Take payload beats for the header of `f`. If the payload is complete the command can execute; if not, it is in flight and
nothing else changes (spec/70_reset_and_hazards.md R271). -/
def Engine.gather {N : Nat} (e : Engine N) (f : Flight N) : Received N :=
  match decode f.header (widenBeats (e.filled f).operands) (e.filled f).bytes with
  | .incomplete => .idle { e.drained f with flight := some (e.filled f) }
  | .rejected c => .rejected c (e.drained f)
  | .command i => .command i (e.drained f)

/-- What one step does with the input ports: reset first (spec/70_reset_and_hazards.md R260); else go on with the command in
flight; else take the next header; else wait (R262, spec/60_exceptions.md R250). -/
def Engine.receive {N : Nat} (e : Engine N) : Received N :=
  if e.resetLine then .idle e.resetNow
  else
    match e.flight, e.commandLane with
    | some f, _ => e.gather f
    | none, h :: rest => { e with commandLane := rest }.gather ⟨h, [], []⟩
    | none, [] => .idle e

/-! ### The host's side -/

/-- The host presents a header and payload beats, after what it has presented before (spec/70_reset_and_hazards.md R266). -/
def Engine.hostSend {N : Nat} (e : Engine N) (h : Header) (operands : List (BitVec N)) (bytes : List Byte) : Engine N :=
  { e with
    commandLane := e.commandLane ++ [h]
    operandLane := e.operandLane ++ operands
    byteLane := e.byteLane ++ bytes }

/-- The host asserts reset, which it may do at any time (spec/70_reset_and_hazards.md R260). -/
def Engine.hostReset {N : Nat} (e : Engine N) : Engine N := { e with resetLine := true }

/-- A header and payload beats placed in front of everything else, so that the next step takes them. -/
def Engine.present {N : Nat} (e : Engine N) (h : Header) (operands : List (BitVec N)) (bytes : List Byte) : Engine N :=
  { e with
    flight := none
    resetLine := false
    commandLane := h :: e.commandLane
    operandLane := operands ++ e.operandLane
    byteLane := bytes ++ e.byteLane }

/-- The words of a command placed in front of everything else. -/
def Engine.presentInstr {N : Nat} (e : Engine N) (i : Instr) : Engine N :=
  e.present (encode i).header ((encode i).operands.map (laneValue N)) (encode i).bytes

/-- A command given as one number (spec/opcode_table.json's numbering) placed in front of everything else. -/
def Engine.presentTableWord {N : Nat} (e : Engine N) (nbits w : Nat) : Engine N :=
  e.present (tableHeader nbits w) (tableOperands N nbits w) (tableBytes nbits w)

end Sys2Proof.Machine
end

