-- ==== Sys2Proof/Machine/Step.lean ====
section
/-!
DEFINITION. One step of the machine: what the input ports hold is taken, and a complete command is executed as one
transition (spec/70_reset_and_hazards.md R270).
-/

namespace Sys2Proof.Machine

/-- One step: reset, or one whole command (checks included, spec/60_exceptions.md R237), or waiting. -/
def step (s : State) : Host.Outcome State Fault Refusal :=
  match s.engine.receive with
  | .idle e => .next ⟨s.width, e⟩
  | .rejected c e => State.perform ⟨s.width, e⟩ fun e => e.raise c
  | .command i e => exec i ⟨s.width, e⟩

/-- `s` with an instruction, given as one number, presented on the ports so that the next step takes and runs it
(log entry 5). -/
def State.withFetchWord (s : State) (nbits w : Nat) : State :=
  s.mapEngine fun e => e.presentTableWord nbits w

end Sys2Proof.Machine
end

