-- ==== Sys2Proof/Safety.lean ====
section
/-!
DEFINITION. The terms the claims use: what a legal configuration and a well-formed engine are (spec/10_state.md R40),
which runs a claim about results is about (spec/60_exceptions.md R251), sequences of commands, and the reference
register of the bit-string law (spec/42_update_bits.md R188).
-/

namespace Sys2Proof.Machine

/-! ### Well-formed states -/

/-- The `k` least significant bits of `v` are 0. -/
abbrev LowBitsZero {N : Nat} (k : Nat) (v : BitVec N) : Prop := ∀ i < k, v.getLsbD i = false

/-- `W` as the descriptor gives it: `N - OFFSET` (spec/10_state.md R36). -/
def Descriptor.width {N : Nat} (d : Descriptor N) : Nat := N - d.offset

/-- What a CONFIG of legal width leaves in the descriptor: OFFSET in 0 to N-1, the table generated from POLY, and the range
of POLY, INIT that spec/10_state.md R40(a) and (c) give. -/
abbrev Descriptor.Legal {N : Nat} (d : Descriptor N) : Prop :=
  d.offset < N ∧ d.table = genTable d.reflect d.poly ∧
    if d.reflect then d.poly.toNat < 2 ^ d.width ∧ d.init.toNat < 2 ^ d.width
    else LowBitsZero d.offset d.poly

/-- The representation invariant of one channel (spec/10_state.md R40). -/
abbrev Channel.Legal {N : Nat} (d : Descriptor N) (c : Channel N) : Prop :=
  if d.reflect then c.crc.toNat < 2 ^ d.width ∧ c.aligned = false
  else if c.aligned then LowBitsZero d.offset c.crc
  else c.crc = d.init

/-- The configured part of the engine is legal (spec/10_state.md R40). -/
abbrev Engine.LegalConfig {N : Nat} (e : Engine N) : Prop :=
  e.desc.Legal ∧ ∀ c ∈ e.channels, c.Legal e.desc

/-- The command in flight, if one is, lacks part of its payload (spec/10_state.md R51). -/
abbrev Engine.FlightLegal {N : Nat} (e : Engine N) : Prop :=
  match e.flight with
  | none => True
  | some f => f.operands.length < payloadOperands f.header ∨ f.bytes.length < payloadBytes f.header

/-- The engine is well formed: NACC is in 1 to 16; a command in flight is incomplete; and unless REFUSED is true, CAUSE is 0
while ERR is 0, no response carries a code of 7 to 15, and once CFG_VALID is 1 the configuration is legal
(spec/00_scope.md R10, spec/10_state.md R40, R42, R51, spec/60_exceptions.md R231). -/
abbrev Engine.Inv {N : Nat} (e : Engine N) : Prop :=
  1 ≤ e.nacc ∧ e.nacc ≤ 16 ∧ e.FlightLegal ∧
    (e.refused = false →
      (e.err = false → e.cause = 0) ∧ e.cause.toNat ≤ 6 ∧ (∀ r ∈ e.responses, r.code.toNat ≤ 6) ∧
        (e.cfgValid = true → e.LegalConfig))

/-- The well-formedness of a machine. -/
abbrev State.Inv (s : State) : Prop := s.engine.Inv

/-! ### The runs that claims are about -/

/-- The engine can execute a command on its channels with the meaning the spec gives it: no refusal has happened and a
CONFIG has completed (spec/60_exceptions.md R251(b), R234). -/
abbrev Engine.Ready {N : Nat} (e : Engine N) : Prop := e.refused = false ∧ e.cfgValid = true

/-- The premises of a claim about the correct use of the engine at the end of a run: no refusal and no rejection
(spec/60_exceptions.md R251). -/
abbrev State.Clean (s : State) : Prop := s.engine.refused = false ∧ s.engine.err = false

/-- A sequence of commands, each executed on the state the one before it leaves (spec/20_memory.md R79). -/
def execAll : List Instr → State → Host.Outcome State Fault Refusal
  | [], s => .next s
  | i :: is, s =>
    match exec i s with
    | .next t => execAll is t
    | .fault r => .fault r
    | .refused r => .refused r

/-- `i` feeds channel `ch`: an UPDATE, or an UPDATE_BITS with a legal K (spec/41_update.md R170). -/
def feedsChannel (ch : BitVec 4) : Instr → Bool
  | .config _ _ _ _ _ => false
  | .init _ => false
  | .update c _ => c == ch
  | .updateBits c _ k => c == ch && decide (k.toNat < 8)
  | .finish _ => false
  | .tableRead _ => false

/-- `i` names channel `ch` (spec/30_encoding.md R93). -/
def namesChannel (ch : BitVec 4) : Instr → Bool
  | .config _ _ _ _ _ => false
  | .init c => c == ch
  | .update c _ => c == ch
  | .updateBits c _ _ => c == ch
  | .finish c => c == ch
  | .tableRead _ => false

/-- A response as a pair of integers, so that engines of different storage widths can be compared
(spec/40_descriptor.md R147). -/
def Response.asInteger {N : Nat} (r : Response N) : Nat × Nat := (r.code.toNat, r.value.toNat)

/-! ### The bit-string reference -/

/-- The bits of a byte, most significant first. -/
def byteBits (b : Byte) : List Bool :=
  [b.getLsbD 7, b.getLsbD 6, b.getLsbD 5, b.getLsbD 4, b.getLsbD 3, b.getLsbD 2, b.getLsbD 1, b.getLsbD 0]

/-- The message bits a command appends in non-reflected mode (spec/42_update_bits.md R186, spec/41_update.md R170). -/
def messageBits : Instr → List Bool
  | .config _ _ _ _ _ => []
  | .init _ => []
  | .update _ data => data.flatMap byteBits
  | .updateBits _ bits k => (byteBits bits).take (8 - k.toNat)
  | .finish _ => []
  | .tableRead _ => []

/-- One message bit of BITREF on the `W`-bit register `c` (spec/42_update_bits.md R188). -/
def bitrefStep {W : Nat} (poly c : BitVec W) (bit : Bool) : BitVec W :=
  if (c.getLsbD (W - 1)).xor bit then (c <<< 1) ^^^ poly else c <<< 1

/-- BITREF of a bit string under the raw parameters of CONFIG (spec/42_update_bits.md R188). -/
def bitref {N : Nat} (W : Nat) (poly init xorout : BitVec N) (bits : List Bool) : BitVec N :=
  (bits.foldl (bitrefStep (poly.setWidth W)) (init.setWidth W)).setWidth N ^^^ xorout

/-! ### Comparing engines -/

/-- The variant of spec/10_state.md R41: every channel of a non-reflected configuration holds its aligned view. -/
def Engine.preAligned {N : Nat} (e : Engine N) : Engine N :=
  if e.desc.reflect then e else { e with channels := e.channels.map e.desc.align }

/-- A sequence of commands on the variant engine of spec/10_state.md R41: whatever channel a command loads is stored
aligned. -/
def execAllPreAligned : List Instr → State → Host.Outcome State Fault Refusal
  | [], s => .next s
  | i :: is, s =>
    match exec i s with
    | .next t => execAllPreAligned is (t.mapEngine Engine.preAligned)
    | .fault r => .fault r
    | .refused r => .refused r

end Sys2Proof.Machine
end

