-- ==== Sys2Proof/Certificates/Slice0/Obligations.lean ====
section
/-!
DEFINITION. The statements about the model, taken from the numbered rules of spec/. A machine is written `⟨n, e⟩`: an engine `e` of
storage width `n`, so that each statement holds for every `N`. A result is stated as the whole next state, `{ e with … }`: what
the update does not name is unchanged, which is the statement's frame (registers, STATUS, lanes and all).
-/

open Sys2Proof Sys2Proof.Machine

/-! ### Encoding and the command port -/

/-- Every command that fits its encoding decodes back from the words the host sends for it, its operand beats cut to the
`N`-bit lane and read again (spec/30_encoding.md R94 to R102, R107). -/
def Obligations.DecodeOfEncodeIsTheCommand : Prop :=
  ∀ (n : StorageWidth) (i : Instr), i.WellFormed n = true →
    decode (encode i).header (widenBeats ((encode i).operands.map (laneValue n.bits))) (encode i).bytes = .command i

/-- The worked encodings of spec/30_encoding.md R109, in both directions.
The rule is one the spec marks as an inference of its own, so this has basis 'derived'. -/
def Obligations.WorkedEncodingsBothWays : Prop :=
  (encode (.config 32 true 0x04C11DB7 0xFFFFFFFF 0xFFFFFFFF)
      = ⟨0x00012001, [0x04C11DB7, 0xFFFFFFFF, 0xFFFFFFFF], []⟩ ∧
    decode 0x00012001 [0x04C11DB7, 0xFFFFFFFF, 0xFFFFFFFF] []
      = .command (.config 32 true 0x04C11DB7 0xFFFFFFFF 0xFFFFFFFF)) ∧
  (encode (.update 0 [0x31, 0x32, 0x33, 0x34, 0x35, 0x36, 0x37, 0x38, 0x39])
      = ⟨0x00000903, [], [0x31, 0x32, 0x33, 0x34, 0x35, 0x36, 0x37, 0x38, 0x39]⟩ ∧
    decode 0x00000903 [] [0x31, 0x32, 0x33, 0x34, 0x35, 0x36, 0x37, 0x38, 0x39]
      = .command (.update 0 [0x31, 0x32, 0x33, 0x34, 0x35, 0x36, 0x37, 0x38, 0x39])) ∧
  (encode (.updateBits 1 0b01010000 3) = ⟨0x00035014, [], []⟩ ∧
    decode 0x00035014 [] [] = .command (.updateBits 1 0b01010000 3)) ∧
  (encode (.finish 2) = ⟨0x00000025, [], []⟩ ∧ decode 0x00000025 [] [] = .command (.finish 2)) ∧
  (encode (.tableRead 0x80) = ⟨0x00008006, [], []⟩ ∧ decode 0x00008006 [] [] = .command (.tableRead 0x80))

/-- A step that finds a complete command at the head of the ports is `exec` of the command the decoder reads, on the engine
with the command's words taken; and so it is for every well-formed command that the host presents
(spec/70_reset_and_hazards.md R270). -/
def Obligations.StepRunsTheDecodedCommand : Prop :=
  (∀ (n : StorageWidth) (e : Engine n.bits) (h : Header) (rest : List Header) (i : Instr),
    e.resetLine = false → e.flight = none → e.commandLane = h :: rest →
    decode h (widenBeats (e.operandLane.take (payloadOperands h))) (e.byteLane.take (payloadBytes h)) = .command i →
    step ⟨n, e⟩ = exec i ⟨n, { e with
      commandLane := rest
      operandLane := e.operandLane.drop (payloadOperands h)
      byteLane := e.byteLane.drop (payloadBytes h) }⟩) ∧
  (∀ (n : StorageWidth) (e : Engine n.bits) (i : Instr),
    i.WellFormed n = true → e.resetLine = false → e.flight = none →
    step ⟨n, e.presentInstr i⟩ = exec i ⟨n, e⟩)

/-- The payload that a step takes with a header depends on OP alone, and is taken whole whether the command is accepted,
rejected or refused (spec/30_encoding.md R101). -/
def Obligations.PayloadLengthDependsOnOpAlone : Prop :=
  ∀ (n : StorageWidth) (e : Engine n.bits) (h : Header) (rest : List Header)
    (beats beats' : List (BitVec n.bits)) (bytes bytes' : List Byte),
    e.resetLine = false → e.flight = none → e.commandLane = h :: rest →
    e.operandLane = beats ++ beats' → beats.length = (if h.extractLsb' 0 4 = 1#4 then 3 else 0) →
    e.byteLane = bytes ++ bytes' → bytes.length = (if h.extractLsb' 0 4 = 3#4 then (h.extractLsb' 8 24).toNat else 0) →
    ∃ e' : Engine n.bits, step ⟨n, e⟩ = .next ⟨n, e'⟩ ∧
      e'.commandLane = rest ∧ e'.operandLane = beats' ∧ e'.byteLane = bytes' ∧ e'.flight = none

/-- Every command, accepted or rejected, appends exactly one response, at the end of the stream: a step that takes a header
whose payload is complete, and every execution of a command (spec/10_state.md R46).
The statement covers engines with REFUSED true and the refused CONFIG itself: that there too one response is appended is the model's
own choice (log entry 4), for the spec gives those responses no meaning (R52, R251(b)). -/
def Obligations.EveryCommandAppendsOneResponse : Prop :=
  (∀ (n : StorageWidth) (e : Engine n.bits) (i : Instr), ∃ (e' : Engine n.bits) (r : Response n.bits),
    exec i ⟨n, e⟩ = .next ⟨n, e'⟩ ∧ e'.responses = e.responses ++ [r]) ∧
  (∀ (n : StorageWidth) (e : Engine n.bits) (h : Header) (rest : List Header),
    e.resetLine = false → e.flight = none → e.commandLane = h :: rest →
    payloadOperands h ≤ e.operandLane.length → payloadBytes h ≤ e.byteLane.length →
    ∃ (e' : Engine n.bits) (r : Response n.bits),
      step ⟨n, e⟩ = .next ⟨n, e'⟩ ∧ e'.responses = e.responses ++ [r])

/-- While a command is in flight, a step that does not find the rest of its payload changes nothing but what has been taken:
no response, no register, no STATUS change, no other command (spec/10_state.md R51, spec/70_reset_and_hazards.md R271). -/
def Obligations.InFlightChangesNoState : Prop :=
  ∀ (n : StorageWidth) (e : Engine n.bits) (f : Flight n.bits),
    e.resetLine = false → e.flight = some f →
    (f.operands.length + e.operandLane.length < payloadOperands f.header ∨
      f.bytes.length + e.byteLane.length < payloadBytes f.header) →
    step ⟨n, e⟩ = .next ⟨n, { e with
        flight := some ⟨f.header,
          f.operands ++ e.operandLane.take (payloadOperands f.header - f.operands.length),
          f.bytes ++ e.byteLane.take (payloadBytes f.header - f.bytes.length)⟩
        operandLane := e.operandLane.drop (payloadOperands f.header - f.operands.length)
        byteLane := e.byteLane.drop (payloadBytes f.header - f.bytes.length) }⟩

/-- A payload that arrives in two parts, with a step in between, gives what the whole command at once gives: the command executes
when its last beat arrives; and so it is for every header, a malformed one among them, with no response before that beat
(spec/70_reset_and_hazards.md R271). -/
def Obligations.SplitPayloadExecutesAtItsLastBeat : Prop :=
  (∀ (n : StorageWidth) (e : Engine n.bits) (i : Instr)
    (beats₁ beats₂ : List (BitVec n.bits)) (bytes₁ bytes₂ : List Byte),
    i.WellFormed n = true → e.resetLine = false → e.flight = none →
    e.commandLane = [] → e.operandLane = [] → e.byteLane = [] →
    (encode i).operands.map (laneValue n.bits) = beats₁ ++ beats₂ → (encode i).bytes = bytes₁ ++ bytes₂ →
    (beats₂ ≠ [] ∨ bytes₂ ≠ []) →
    ∃ e' : Engine n.bits, step ⟨n, e.hostSend (encode i).header beats₁ bytes₁⟩ = .next ⟨n, e'⟩ ∧
      step ⟨n, { e' with operandLane := e'.operandLane ++ beats₂, byteLane := e'.byteLane ++ bytes₂ }⟩ = exec i ⟨n, e⟩) ∧
  (∀ (n : StorageWidth) (e : Engine n.bits) (h : Header)
    (beats₁ beats₂ : List (BitVec n.bits)) (bytes₁ bytes₂ : List Byte),
    e.resetLine = false → e.flight = none → e.commandLane = [] → e.operandLane = [] → e.byteLane = [] →
    (beats₁ ++ beats₂).length = payloadOperands h → (bytes₁ ++ bytes₂).length = payloadBytes h →
    (beats₂ ≠ [] ∨ bytes₂ ≠ []) →
    ∃ e' : Engine n.bits, step ⟨n, e.hostSend h beats₁ bytes₁⟩ = .next ⟨n, e'⟩ ∧ e'.responses = e.responses ∧
      step ⟨n, { e' with operandLane := e'.operandLane ++ beats₂, byteLane := e'.byteLane ++ bytes₂ }⟩ =
        step ⟨n, e.hostSend h (beats₁ ++ beats₂) (bytes₁ ++ bytes₂)⟩)

/-- Between commands the engine holds its state and waits: with reset not asserted, nothing in flight and no header presented, a
step changes nothing (spec/60_exceptions.md R250, spec/70_reset_and_hazards.md R262). -/
def Obligations.WaitsForTheNextHeader : Prop :=
  ∀ (n : StorageWidth) (e : Engine n.bits),
    e.resetLine = false → e.flight = none → e.commandLane = [] → step ⟨n, e⟩ = .next ⟨n, e⟩

/-- No step stops: every state has a next state, whatever the host has presented (spec/60_exceptions.md R230, R251(a); in particular
a rejected command is a step and the engine goes on).
Two of its cases are the model's own choice: a state in which a command waits for a payload that never arrives, which the spec calls
stuck (R251(c)), has a next state here, in which nothing but the taking of beats happens (log entry 6); and the machine goes on after
a CONFIG of invalid width, to which the spec gives no meaning (log entry 4). -/
def Obligations.EveryStepHasANextState : Prop :=
  ∀ s : State, ∃ t : State, step s = .next t

/-! ### Rejection -/

/-- A header with a reserved OP is rejected with ILLEGAL_OP whatever its other bits hold, and carries no payload: the next word on
the command port is the next header (spec/60_exceptions.md R232). -/
def Obligations.ReservedOpIsIllegalWithoutPayload : Prop :=
  ∀ (n : StorageWidth) (e : Engine n.bits) (h : Header) (rest : List Header),
    e.refused = false → e.resetLine = false → e.flight = none → e.commandLane = h :: rest →
    (h.extractLsb' 0 4 = 0#4 ∨ 7 ≤ (h.extractLsb' 0 4).toNat) →
    step ⟨n, e⟩ = .next ⟨n, { e with
      commandLane := rest
      err := true
      cause := if e.err then e.cause else 1
      responses := e.responses ++ [⟨1, 0⟩] }⟩

/-- The check order of spec/60_exceptions.md R237 for every header whose payload has arrived: the code of the response is that of the
first check that fails; a failing check changes nothing but STATUS and the stream, and a command that passes them is executed and
changes neither STATUS.ERR nor STATUS.CAUSE. A CONFIG that passes with a width of 0 or above `N` is refused, and no code is claimed for it. -/
def Obligations.ChecksRunInTheirOrder : Prop :=
  ∀ (n : StorageWidth) (e : Engine n.bits) (h : Header) (rest : List Header),
    e.refused = false → e.resetLine = false → e.flight = none → e.commandLane = h :: rest →
    (if h.extractLsb' 0 4 = 1#4 then 3 else 0) ≤ e.operandLane.length →
    (if h.extractLsb' 0 4 = 3#4 then (h.extractLsb' 8 24).toNat else 0) ≤ e.byteLane.length →
    let op : BitVec 4 := h.extractLsb' 0 4
    let ch : BitVec 4 := h.extractLsb' 4 4
    let reservedBit : Prop :=
      (op = 1 ∧ (h.extractLsb' 17 15 ≠ 0#15 ∨ h.extractLsb' 4 4 ≠ 0#4)) ∨
      ((op = 2 ∨ op = 5) ∧ h.extractLsb' 8 24 ≠ 0#24) ∨
      (op = 4 ∧ h.extractLsb' 20 12 ≠ 0#12) ∨
      (op = 6 ∧ (h.extractLsb' 16 16 ≠ 0#16 ∨ h.extractLsb' 4 4 ≠ 0#4))
    let invalidWidth : Prop :=
      op = 1 ∧ ¬ reservedBit ∧ ((h.extractLsb' 8 8).toNat = 0 ∨ n.bits < (h.extractLsb' 8 8).toNat)
    ∃ (e' : Engine n.bits) (code : BitVec 4) (value : BitVec n.bits),
      step ⟨n, e⟩ = .next ⟨n, e'⟩ ∧ e'.responses = e.responses ++ [⟨code, value⟩] ∧
      (¬ invalidWidth →
        ((op = 0 ∨ 7 ≤ op.toNat) → code = 1) ∧
        (¬ (op = 0 ∨ 7 ≤ op.toNat) → reservedBit → code = 2) ∧
        (¬ (op = 0 ∨ 7 ≤ op.toNat) → ¬ reservedBit →
          ((op = 2 ∨ op = 3 ∨ op = 4 ∨ op = 5) ∧ e.nacc ≤ ch.toNat → code = 3) ∧
          (¬ ((op = 2 ∨ op = 3 ∨ op = 4 ∨ op = 5) ∧ e.nacc ≤ ch.toNat) →
            (op ≠ 1 ∧ e.cfgValid = false → code = 4) ∧
            (¬ (op ≠ 1 ∧ e.cfgValid = false) →
              (op = 4 ∧ e.desc.reflect = true → code = 5) ∧
              (op = 4 ∧ e.desc.reflect = false ∧ 8 ≤ (h.extractLsb' 16 4).toNat → code = 6) ∧
              (¬ (op = 4 ∧ (e.desc.reflect = true ∨ 8 ≤ (h.extractLsb' 16 4).toNat)) → code = 0))))) ∧
      (code ≠ 0 → value = 0 ∧ e'.err = true ∧ e'.cause = (if e.err then e.cause else code) ∧
        e'.desc = e.desc ∧ e'.channels = e.channels ∧ e'.cfgValid = e.cfgValid ∧ e'.refused = e.refused) ∧
      (code = 0 → e'.err = e.err ∧ e'.cause = e.cause ∧
        ∃ i, decode h (widenBeats (e.operandLane.take (payloadOperands h))) (e.byteLane.take (payloadBytes h)) = .command i ∧
          step ⟨n, e⟩ = exec i ⟨n, { e with
            commandLane := rest
            operandLane := e.operandLane.drop (payloadOperands h)
            byteLane := e.byteLane.drop (payloadBytes h) }⟩)

/-- What a rejection does: whenever the response of a command carries a nonzero code, the state after it is the state before with ERR
set, CAUSE recorded if ERR was 0, and the response (code, 0), and nothing else; so it is for every command that is executed and for every
header that a step takes with its payload, a malformed one among them, after which the next header is next (spec/60_exceptions.md R236). -/
def Obligations.RejectionWritesStatusOnly : Prop :=
  (∀ (n : StorageWidth) (e : Engine n.bits) (i : Instr), e.refused = false →
    ∃ (e' : Engine n.bits) (code : BitVec 4) (value : BitVec n.bits),
      exec i ⟨n, e⟩ = .next ⟨n, e'⟩ ∧ e'.responses = e.responses ++ [⟨code, value⟩] ∧
      (code ≠ 0 → e' = { e with
        err := true
        cause := if e.err then e.cause else code
        responses := e.responses ++ [⟨code, 0⟩] })) ∧
  (∀ (n : StorageWidth) (e : Engine n.bits) (h : Header) (rest : List Header),
    e.refused = false → e.resetLine = false → e.flight = none → e.commandLane = h :: rest →
    payloadOperands h ≤ e.operandLane.length → payloadBytes h ≤ e.byteLane.length →
    ∃ (e' : Engine n.bits) (code : BitVec 4) (value : BitVec n.bits),
      step ⟨n, e⟩ = .next ⟨n, e'⟩ ∧ e'.responses = e.responses ++ [⟨code, value⟩] ∧
      (code ≠ 0 → e' = { e with
        commandLane := rest
        operandLane := e.operandLane.drop (payloadOperands h)
        byteLane := e.byteLane.drop (payloadBytes h)
        err := true
        cause := if e.err then e.cause else code
        responses := e.responses ++ [⟨code, 0⟩] }))

/-- A channel number of NACC or more is rejected with BAD_CHANNEL by each of the four commands that name a channel, configured or not
(spec/60_exceptions.md R233(b), R236). -/
def Obligations.ChannelAboveNaccIsRejected : Prop :=
  ∀ (n : StorageWidth) (e : Engine n.bits) (ch : BitVec 4), e.refused = false → e.nacc ≤ ch.toNat →
    let rejected : Engine n.bits := { e with
      err := true
      cause := if e.err then e.cause else 3
      responses := e.responses ++ [⟨3, 0⟩] }
    exec (.init ch) ⟨n, e⟩ = .next ⟨n, rejected⟩ ∧
    (∀ data, exec (.update ch data) ⟨n, e⟩ = .next ⟨n, rejected⟩) ∧
    (∀ bits k, exec (.updateBits ch bits k) ⟨n, e⟩ = .next ⟨n, rejected⟩) ∧
    exec (.finish ch) ⟨n, e⟩ = .next ⟨n, rejected⟩

/-- While CFG_VALID is 0, INIT, UPDATE, UPDATE_BITS and FINISH on an existing channel, and TABLE_READ, are rejected with NOT_CONFIGURED,
and a CONFIG of legal width is not rejected (spec/60_exceptions.md R234, R236, R237). -/
def Obligations.CommandsBeforeConfigAreRejected : Prop :=
  ∀ (n : StorageWidth) (e : Engine n.bits), e.refused = false → e.cfgValid = false →
    let rejected : Engine n.bits := { e with
      err := true
      cause := if e.err then e.cause else 4
      responses := e.responses ++ [⟨4, 0⟩] }
    (∀ ch : BitVec 4, ch.toNat < e.nacc →
      exec (.init ch) ⟨n, e⟩ = .next ⟨n, rejected⟩ ∧
      (∀ data, exec (.update ch data) ⟨n, e⟩ = .next ⟨n, rejected⟩) ∧
      (∀ bits k, exec (.updateBits ch bits k) ⟨n, e⟩ = .next ⟨n, rejected⟩) ∧
      exec (.finish ch) ⟨n, e⟩ = .next ⟨n, rejected⟩) ∧
    (∀ idx, exec (.tableRead idx) ⟨n, e⟩ = .next ⟨n, rejected⟩) ∧
    (∀ w r poly ini xorout, 1 ≤ BitVec.toNat w → BitVec.toNat w ≤ n.bits →
      ∃ e' : Engine n.bits, exec (.config w r poly ini xorout) ⟨n, e⟩ = .next ⟨n, e'⟩ ∧
        e'.cfgValid = true ∧ e'.responses = e.responses ++ [⟨0, 0⟩])

/-- UPDATE_BITS in reflected mode is rejected with PRECOND_REFLECT, whatever K is, and in non-reflected mode with K of 8 or more with
PRECOND_OFFSET; CRC, ALIGNED, descriptor and table stay (spec/42_update_bits.md R181). -/
def Obligations.UpdateBitsPreconditionsAreChecked : Prop :=
  ∀ (n : StorageWidth) (e : Engine n.bits) (ch : BitVec 4) (bits : Byte) (k : BitVec 4),
    e.Ready → ch.toNat < e.nacc →
    (e.desc.reflect = true → exec (.updateBits ch bits k) ⟨n, e⟩ = .next ⟨n, { e with
      err := true
      cause := if e.err then e.cause else 5
      responses := e.responses ++ [⟨5, 0⟩] }⟩) ∧
    (e.desc.reflect = false → 8 ≤ k.toNat → exec (.updateBits ch bits k) ⟨n, e⟩ = .next ⟨n, { e with
      err := true
      cause := if e.err then e.cause else 6
      responses := e.responses ++ [⟨6, 0⟩] }⟩)

/-- A rejected command leaves no trace but STATUS and its own response: any commands after it give the responses, and all the state
but ERR, CAUSE and the stream, that they would give had it not been sent (spec/60_exceptions.md R240).
R238 and R240 are inferences the spec marks as its own, so this has basis 'derived'.
The commands may run into a CONFIG of invalid width, or start after one: the premise of R251(b) that REFUSED is false is not made, and
that the two runs agree there too is the model's own choice, since the spec gives such runs no meaning: both draw the same free values,
by the counter `draws` (log entries 4 and 9). -/
def Obligations.RejectedCommandLeavesNoTrace : Prop :=
  ∀ (n : StorageWidth) (e : Engine n.bits) (i : Instr) (code : BitVec 4) (value : BitVec n.bits) (e₁ : Engine n.bits)
    (is : List Instr),
    e.refused = false → exec i ⟨n, e⟩ = .next ⟨n, e₁⟩ → e₁.responses = e.responses ++ [⟨code, value⟩] → code ≠ 0 →
    ∃ (a b : Engine n.bits) (rs : List (Response n.bits)),
      execAll is ⟨n, e⟩ = .next ⟨n, a⟩ ∧ execAll is ⟨n, e₁⟩ = .next ⟨n, b⟩ ∧
      a.responses = e.responses ++ rs ∧ b.responses = e₁.responses ++ rs ∧
      b = { a with err := b.err, cause := b.cause, responses := b.responses }

/-! ### STATUS -/

/-- The STATUS word: bit 0 is CFG_VALID, bit 1 is ERR, bits 7:4 are CAUSE, and bits 3:2 and 31:8 read 0 (spec/10_state.md R42). -/
def Obligations.StatusWordLayout : Prop :=
  ∀ (N : Nat) (e : Engine N),
    e.status.getLsbD 0 = e.cfgValid ∧ e.status.getLsbD 1 = e.err ∧ e.status.extractLsb' 4 4 = e.cause ∧
    e.status.extractLsb' 2 2 = 0#2 ∧ e.status.extractLsb' 8 24 = 0#24

/-- Only reset clears ERR, CAUSE and CFG_VALID: no step without reset clears ERR or CFG_VALID or changes a recorded CAUSE, and a step
that takes reset clears all three (spec/70_reset_and_hazards.md R261). -/
def Obligations.OnlyResetClearsStatus : Prop :=
  ∀ (n : StorageWidth) (e e' : Engine n.bits), step ⟨n, e⟩ = .next ⟨n, e'⟩ →
    (e.resetLine = false → e.refused = false →
      (e.cfgValid = true → e'.cfgValid = true) ∧ (e.err = true → e'.err = true ∧ e'.cause = e.cause)) ∧
    (e.resetLine = true → e'.cfgValid = false ∧ e'.err = false ∧ e'.cause = 0)

/-! ### CONFIG -/

/-- A CONFIG of legal width completes: OFFSET, POLY, INIT, XOROUT and REFLECT take the values of the transforms, some table replaces
the old one (the next statement says which), every channel holds the new INIT unaligned, CFG_VALID is set, the response is (OK, 0),
and nothing else changes (spec/40_descriptor.md R132, R133, R134, R136, R140). -/
def Obligations.ConfigWritesDescriptorAndChannels : Prop :=
  ∀ (n : StorageWidth) (e : Engine n.bits) (w : BitVec 8) (r : Bool) (poly ini xorout : BitVec maxWidth),
    e.refused = false → 1 ≤ w.toNat → w.toNat ≤ n.bits →
    let p : BitVec n.bits := poly.setWidth n.bits
    let q : BitVec n.bits := ini.setWidth n.bits
    let newPoly : BitVec n.bits := if r then (p <<< (n.bits - w.toNat)).reverse else p <<< (n.bits - w.toNat)
    let newInit : BitVec n.bits := if r then q.reverse >>> (n.bits - w.toNat) else q
    ∃ table : Vector (BitVec n.bits) 256,
      exec (.config w r poly ini xorout) ⟨n, e⟩ = .next ⟨n, { e with
        desc := ⟨newPoly, n.bits - w.toNat, newInit, xorout.setWidth n.bits, r, table⟩
        channels := List.replicate e.nacc ⟨newInit, false⟩
        cfgValid := true
        responses := e.responses ++ [⟨0, 0⟩] }⟩

/-- The table after a CONFIG of legal width: entry `i` is the loop of GEN(i), written out here as 8 steps on the byte, with the POLY
that the same CONFIG wrote (spec/40_descriptor.md R137, R138, R139). -/
def Obligations.ConfigFillsTheTable : Prop :=
  ∀ (n : StorageWidth) (e : Engine n.bits) (w : BitVec 8) (r : Bool) (poly ini xorout : BitVec maxWidth),
    e.refused = false → 1 ≤ w.toNat → w.toNat ≤ n.bits →
    ∃ e' : Engine n.bits, exec (.config w r poly ini xorout) ⟨n, e⟩ = .next ⟨n, e'⟩ ∧
      ∀ i : Byte,
        (r = true → e'.desc.table[i.toNat]'i.isLt =
          (fun v : BitVec n.bits => if v.getLsbD 0 = true then (v >>> 1) ^^^ e'.desc.poly else v >>> 1)^[8]
            (i.setWidth n.bits)) ∧
        (r = false → e'.desc.table[i.toNat]'i.isLt =
          (fun v : BitVec n.bits => if v.getLsbD (n.bits - 1) = true then (v <<< 1) ^^^ e'.desc.poly else v <<< 1)^[8]
            (i.setWidth n.bits <<< (n.bits - 8)))

/-- A second CONFIG replaces the whole descriptor and table and re-initialises every channel: on two engines of the same size, whatever
they hold, the same CONFIG of legal width leaves the same descriptor, table and channels (spec/40_descriptor.md R141). -/
def Obligations.ConfigDiscardsWhatWasThere : Prop :=
  ∀ (n : StorageWidth) (e₁ e₂ : Engine n.bits) (w : BitVec 8) (r : Bool) (poly ini xorout : BitVec maxWidth),
    e₁.refused = false → e₂.refused = false → e₁.nacc = e₂.nacc → 1 ≤ w.toNat → w.toNat ≤ n.bits →
    ∃ a b : Engine n.bits,
      exec (.config w r poly ini xorout) ⟨n, e₁⟩ = .next ⟨n, a⟩ ∧
      exec (.config w r poly ini xorout) ⟨n, e₂⟩ = .next ⟨n, b⟩ ∧
      a.desc = b.desc ∧ a.channels = b.channels ∧ a.cfgValid = true ∧ b.cfgValid = true ∧
      (∀ c ∈ a.channels, c = ⟨a.desc.init, false⟩)

/-- A CONFIG with a width of 0 or above `N` is no error: REFUSED becomes true, ERR and CAUSE stay, CFG_VALID is set, and the engine goes
on with one response. That the response's code is OK is the model's own reading of "sets no RSP_CODE" (log entry 4), so this is
derived (spec/40_descriptor.md R135, spec/60_exceptions.md R242, spec/10_state.md R43, R52). -/
def Obligations.InvalidWidthSetsRefusedAndNoError : Prop :=
  ∀ (n : StorageWidth) (e : Engine n.bits) (w : BitVec 8) (r : Bool) (poly ini xorout : BitVec maxWidth),
    e.refused = false → (w.toNat = 0 ∨ n.bits < w.toNat) →
    ∃ (e' : Engine n.bits) (value : BitVec n.bits),
      exec (.config w r poly ini xorout) ⟨n, e⟩ = .next ⟨n, e'⟩ ∧
      e'.refused = true ∧ e'.err = e.err ∧ e'.cause = e.cause ∧ e'.cfgValid = true ∧ e'.nacc = e.nacc ∧
      e'.responses = e.responses ++ [⟨0, value⟩]

/-- REFUSED is for good: once true it stays true through every step, reset included (spec/10_state.md R52,
spec/70_reset_and_hazards.md R260(c)). -/
def Obligations.RefusedIsForGood : Prop :=
  ∀ (n : StorageWidth) (e e' : Engine n.bits), step ⟨n, e⟩ = .next ⟨n, e'⟩ → e.refused = true → e'.refused = true

/-- The corner cases of CONFIG (spec/40_descriptor.md R142).
The rule is one the spec marks as an inference of its own, so this has basis 'derived'. -/
def Obligations.ConfigCornerCases : Prop :=
  ∀ (n : StorageWidth) (W : Nat) (r : Bool) (poly ini xorout : BitVec n.bits), 1 ≤ W → W ≤ n.bits →
    -- (a) W = N
    (Descriptor.build n.bits r poly ini xorout).offset = 0 ∧
    (Descriptor.build n.bits false poly ini xorout).poly = poly ∧
    (Descriptor.build n.bits true poly ini xorout).poly = poly.reverse ∧
    -- (b) W = 1
    (Descriptor.build 1 r poly ini xorout).offset = n.bits - 1 ∧
    (Descriptor.build 1 false poly ini xorout).poly = (BitVec.ofBool (poly.getLsbD 0)).setWidth n.bits <<< (n.bits - 1) ∧
    (Descriptor.build 1 true poly ini xorout).poly = (BitVec.ofBool (poly.getLsbD 0)).setWidth n.bits ∧
    -- (c) poly = 0: the data bytes have no effect
    (∀ (b : Byte) (crc : BitVec n.bits),
      (Descriptor.build W r 0 ini xorout).entry b = 0 ∧
      (Descriptor.build W true 0 ini xorout).byteStepR crc b = crc >>> 8 ∧
      (Descriptor.build W false 0 ini xorout).byteStepNR crc b = crc <<< 8) ∧
    -- (d), (f) bits of poly at position W or above are discarded; bits of init are discarded by the reflected transform, and by FIN and
    -- the alignment in non-reflected mode
    (∀ poly' ini' : BitVec n.bits,
      (∀ j < W, poly'.getLsbD j = poly.getLsbD j) → (∀ j < W, ini'.getLsbD j = ini.getLsbD j) →
      (Descriptor.build W r poly' ini xorout).poly = (Descriptor.build W r poly ini xorout).poly ∧
      (Descriptor.build W r poly' ini xorout).table = (Descriptor.build W r poly ini xorout).table ∧
      (Descriptor.build W true poly ini' xorout).init = (Descriptor.build W true poly ini xorout).init ∧
      (Descriptor.build W false poly ini' xorout).init = ini' ∧
      ini' <<< (n.bits - W) = ini <<< (n.bits - W)) ∧
    -- (e) every bit of xorout is kept
    (Descriptor.build W r poly ini xorout).xorout = xorout ∧
    -- (g) N = 8: GEN starts from the byte itself
    (∀ b : Byte, inTopByte 8 b = b)

/-- The table that CONFIG builds is linear over GF(2) (spec/40_descriptor.md R143).
The rule is one the spec marks as an inference of its own, so this has basis 'derived'. -/
def Obligations.TableIsLinear : Prop :=
  ∀ (n : StorageWidth) (W : Nat) (r : Bool) (poly ini xorout : BitVec n.bits) (a b : Byte),
    let d := Descriptor.build W r poly ini xorout
    d.entry 0 = 0 ∧ d.entry (a ^^^ b) = d.entry a ^^^ d.entry b

/-- The entry at the last single bit is POLY: TABLE[0x01] in non-reflected mode, TABLE[0x80] in reflected mode
(spec/40_descriptor.md R144).
The rule is one the spec marks as an inference of its own, so this has basis 'derived'. -/
def Obligations.SingleBitEntriesArePoly : Prop :=
  ∀ (n : StorageWidth) (W : Nat) (poly ini xorout : BitVec n.bits),
    (Descriptor.build W false poly ini xorout).entry 0x01 = (Descriptor.build W false poly ini xorout).poly ∧
    (Descriptor.build W true poly ini xorout).entry 0x80 = (Descriptor.build W true poly ini xorout).poly

/-- The reflected table is the bit-reversed non-reflected table at the bit-reversed index (spec/40_descriptor.md R145).
The rule is one the spec marks as an inference of its own, so this has basis 'derived'. -/
def Obligations.TablesAreReflections : Prop :=
  ∀ (n : StorageWidth) (W : Nat) (poly ini₁ ini₂ xorout₁ xorout₂ : BitVec n.bits) (i : Byte),
    (Descriptor.build W true poly ini₁ xorout₁).entry i =
      ((Descriptor.build W false poly ini₂ xorout₂).entry i.reverse).reverse

/-- The range of the entries under a legal width (spec/40_descriptor.md R146).
The rule is one the spec marks as an inference of its own, so this has basis 'derived'. -/
def Obligations.TableEntriesAreInRange : Prop :=
  ∀ (n : StorageWidth) (W : Nat) (poly ini xorout : BitVec n.bits) (i : Byte), 1 ≤ W → W ≤ n.bits →
    ((Descriptor.build W true poly ini xorout).entry i).toNat < 2 ^ W ∧
    ∀ j < n.bits - W, ((Descriptor.build W false poly ini xorout).entry i).getLsbD j = false

/-- The storage width cannot be seen in results: two engines of any two storage widths of at least `W`, with equally many channels, given
the same CONFIG (whose operands fit both lanes) and then the same commands, no further CONFIG among them, append as many responses, and
the responses of every command but TABLE_READ are equal, read as integers (spec/40_descriptor.md R147).
The rule is one the spec marks as an inference of its own, so this has basis 'derived'. -/
def Obligations.ResultsDoNotDependOnStorageWidth : Prop :=
  ∀ (n₁ n₂ : StorageWidth) (e₁ : Engine n₁.bits) (e₂ : Engine n₂.bits)
    (w : BitVec 8) (r : Bool) (poly ini xorout : BitVec maxWidth) (is : List Instr),
    e₁.refused = false → e₂.refused = false → e₁.nacc = e₂.nacc →
    1 ≤ w.toNat → w.toNat ≤ n₁.bits → w.toNat ≤ n₂.bits →
    (Instr.config w r poly ini xorout).WellFormed n₁ = true → (Instr.config w r poly ini xorout).WellFormed n₂ = true →
    (∀ w' r' p' q' x', Instr.config w' r' p' q' x' ∉ is) →
    ∃ (a : Engine n₁.bits) (b : Engine n₂.bits) (ra : List (Response n₁.bits)) (rb : List (Response n₂.bits)),
      execAll (.config w r poly ini xorout :: is) ⟨n₁, e₁⟩ = .next ⟨n₁, a⟩ ∧
      execAll (.config w r poly ini xorout :: is) ⟨n₂, e₂⟩ = .next ⟨n₂, b⟩ ∧
      a.responses = e₁.responses ++ ⟨0, 0⟩ :: ra ∧ b.responses = e₂.responses ++ ⟨0, 0⟩ :: rb ∧
      ra.length = is.length ∧ rb.length = is.length ∧
      ∀ (j : Nat) (i : Instr), is[j]? = some i → (∀ idx, i ≠ .tableRead idx) →
        ra[j]?.map Response.asInteger = rb[j]?.map Response.asInteger

/-! ### UPDATE -/

/-- UPDATE in reflected mode: one table step per byte in order, ALIGNED as it was, and the response is FIN of the new register; nothing
else changes (spec/41_update.md R161, R165, spec/20_memory.md R70). -/
def Obligations.ReflectedUpdateResult : Prop :=
  ∀ (n : StorageWidth) (e : Engine n.bits) (ch : BitVec 4) (c : Channel n.bits) (data : List Byte),
    e.Ready → e.desc.reflect = true → e.channel? ch = some c →
    let crc : BitVec n.bits := data.foldl (fun r b => (r >>> 8) ^^^ e.desc.entry (r.setWidth 8 ^^^ b)) c.crc
    exec (.update ch data) ⟨n, e⟩ = .next ⟨n, { e with
      channels := e.channels.set ch.toNat ⟨crc, c.aligned⟩
      responses := e.responses ++ [⟨0, crc ^^^ e.desc.xorout⟩] }⟩

/-- UPDATE of at least one byte in non-reflected mode: the register is shifted left by OFFSET if and only if it was not aligned, then one
table step per byte; the channel is aligned, the response is FIN of the new register, and nothing else changes
(spec/41_update.md R162, R163, R165). -/
def Obligations.NonReflectedUpdateResult : Prop :=
  ∀ (n : StorageWidth) (e : Engine n.bits) (ch : BitVec 4) (c : Channel n.bits) (data : List Byte),
    e.Ready → e.desc.reflect = false → e.channel? ch = some c → data ≠ [] →
    let start : BitVec n.bits := if c.aligned then c.crc else c.crc <<< e.desc.offset
    let crc : BitVec n.bits :=
      data.foldl (fun r b => (r <<< 8) ^^^ e.desc.entry ((r >>> (n.bits - 8)).setWidth 8 ^^^ b)) start
    exec (.update ch data) ⟨n, e⟩ = .next ⟨n, { e with
      channels := e.channels.set ch.toNat ⟨crc, true⟩
      responses := e.responses ++ [⟨0, (crc >>> e.desc.offset) ^^^ e.desc.xorout⟩] }⟩

/-- An UPDATE with no bytes changes no state, applies no alignment, and responds (OK, FIN) (spec/41_update.md R164). -/
def Obligations.EmptyUpdateChangesNoState : Prop :=
  ∀ (n : StorageWidth) (e : Engine n.bits) (ch : BitVec 4) (c : Channel n.bits),
    e.Ready → e.channel? ch = some c →
    exec (.update ch []) ⟨n, e⟩ = .next ⟨n, { e with responses := e.responses ++ [⟨0, e.desc.fin c⟩] }⟩

/-- The width-1 case: with `N` = 8 both byte steps are one table read at `CRC ^ b` (spec/41_update.md R166).
The rule is one the spec marks as an inference of its own, so this has basis 'derived'. -/
def Obligations.ByteStepsAtWidthEight : Prop :=
  ∀ (d : Descriptor 8) (crc : BitVec 8) (b : Byte),
    d.byteStepR crc b = d.entry (crc ^^^ b) ∧ d.byteStepNR crc b = d.entry (crc ^^^ b)

/-- The chunking law: an UPDATE cut into any pieces, empty ones among them, leaves the channel and the last response as the one UPDATE
does, from a channel in any state (spec/41_update.md R168).
The rule is one the spec marks as an inference of its own, so this has basis 'derived'. -/
def Obligations.ChunkingDoesNotMatter : Prop :=
  ∀ (n : StorageWidth) (e : Engine n.bits) (ch : BitVec 4) (pieces : List (List Byte)),
    e.Ready → ch.toNat < e.nacc → pieces ≠ [] →
    ∃ (a b : Engine n.bits) (r : Response n.bits),
      execAll (pieces.map (Instr.update ch)) ⟨n, e⟩ = .next ⟨n, a⟩ ∧
      exec (.update ch pieces.flatten) ⟨n, e⟩ = .next ⟨n, b⟩ ∧
      a.channels = b.channels ∧ a.desc = b.desc ∧
      a.responses.getLast? = some r ∧ b.responses.getLast? = some r

/-- A byte step is eight bit steps, under a table that CONFIG generated from POLY (spec/41_update.md R169).
The rule is one the spec marks as an inference of its own, so this has basis 'derived'. -/
def Obligations.ByteStepIsEightBitSteps : Prop :=
  ∀ (n : StorageWidth) (d : Descriptor n.bits) (crc : BitVec n.bits) (b : Byte), d.table = genTable d.reflect d.poly →
    (d.reflect = false →
      d.byteStepNR crc b = (fun v : BitVec n.bits => if v.getLsbD (n.bits - 1) = true then (v <<< 1) ^^^ d.poly else v <<< 1)^[8]
        (crc ^^^ (b.setWidth n.bits <<< (n.bits - 8)))) ∧
    (d.reflect = true →
      d.byteStepR crc b = (fun v : BitVec n.bits => if v.getLsbD 0 = true then (v >>> 1) ^^^ d.poly else v >>> 1)^[8]
        (crc ^^^ b.setWidth n.bits))

/-! ### UPDATE_BITS -/

/-- UPDATE_BITS with K below 8 in non-reflected mode: the register is aligned if it was not, the masked byte is XORed into its top byte,
8 - K single-bit steps with the descriptor's POLY follow, the channel is aligned, the response is FIN, and nothing else changes
(spec/42_update_bits.md R183, R184, R185). -/
def Obligations.UpdateBitsResult : Prop :=
  ∀ (n : StorageWidth) (e : Engine n.bits) (ch : BitVec 4) (c : Channel n.bits) (bits : Byte) (k : BitVec 4),
    e.Ready → e.desc.reflect = false → e.channel? ch = some c → k.toNat < 8 →
    let start : BitVec n.bits := if c.aligned then c.crc else c.crc <<< e.desc.offset
    let m : Byte := bits &&& ((0xFF : Byte) <<< k.toNat)
    let crc : BitVec n.bits := (fun v : BitVec n.bits => if v.getLsbD (n.bits - 1) = true then (v <<< 1) ^^^ e.desc.poly else v <<< 1)^[(8 - k.toNat)]
      (start ^^^ (m.setWidth n.bits <<< (n.bits - 8)))
    exec (.updateBits ch bits k) ⟨n, e⟩ = .next ⟨n, { e with
      channels := e.channels.set ch.toNat ⟨crc, true⟩
      responses := e.responses ++ [⟨0, (crc >>> e.desc.offset) ^^^ e.desc.xorout⟩] }⟩

/-- Bits K-1 to 0 of BITS never affect the result: two bytes that agree from bit K up do the same in every state
(spec/42_update_bits.md R182, R190(c)).
The rule is one the spec marks as an inference of its own, so this has basis 'derived'.
"Every state" takes in those with REFUSED true, against the premise of R251(b): that the two results are one state there too is the
model's own choice, since the spec gives them no meaning: the free values drawn do not depend on the command (log entries 4 and 9). -/
def Obligations.BitsBelowKDoNotMatter : Prop :=
  ∀ (n : StorageWidth) (e : Engine n.bits) (ch : BitVec 4) (bits₁ bits₂ : Byte) (k : BitVec 4),
    (∀ j, k.toNat ≤ j → bits₁.getLsbD j = bits₂.getLsbD j) →
    ∃ e' : Engine n.bits, exec (.updateBits ch bits₁ k) ⟨n, e⟩ = .next ⟨n, e'⟩ ∧
      exec (.updateBits ch bits₂ k) ⟨n, e⟩ = .next ⟨n, e'⟩

/-- A full byte through the bit unit is a one-byte UPDATE, under a table that CONFIG generated from POLY (spec/42_update_bits.md R187;
`EveryStepKeepsTheEngineWellFormed` says that the table is so in every configured run).
The rule is one the spec marks as an inference of its own, so this has basis 'derived'. -/
def Obligations.FullByteThroughTheBitUnit : Prop :=
  ∀ (n : StorageWidth) (e : Engine n.bits) (ch : BitVec 4) (b : Byte),
    e.Ready → e.desc.reflect = false → e.desc.table = genTable false e.desc.poly → ch.toNat < e.nacc →
    ∃ e' : Engine n.bits, exec (.updateBits ch b 0) ⟨n, e⟩ = .next ⟨n, e'⟩ ∧
      exec (.update ch [b]) ⟨n, e⟩ = .next ⟨n, e'⟩ ∧ e'.err = e.err

/-- The bit-string law: a non-reflected channel fresh from CONFIG or INIT, fed by any UPDATE and UPDATE_BITS commands with K below 8, has
as its finished value BITREF of the concatenation of the message bits, under the raw parameters of CONFIG
(spec/42_update_bits.md R188).
BITREF stands in the spec as general knowledge, and the law as an inference of its own, so this has basis 'derived'. -/
def Obligations.BitStringLaw : Prop :=
  ∀ (n : StorageWidth) (e : Engine n.bits) (W : Nat) (poly ini xorout : BitVec n.bits) (ch : BitVec 4) (is : List Instr),
    1 ≤ W → W ≤ n.bits → e.Ready → e.desc = Descriptor.build W false poly ini xorout →
    e.channel? ch = some ⟨e.desc.init, false⟩ → (∀ i ∈ is, feedsChannel ch i = true) →
    ∃ (e' : Engine n.bits) (c : Channel n.bits),
      execAll is ⟨n, e⟩ = .next ⟨n, e'⟩ ∧ e'.err = e.err ∧ e'.channel? ch = some c ∧
      e'.desc.fin c = bitref W poly ini xorout (is.flatMap messageBits)

/-! ### INIT, FINISH, TABLE_READ -/

/-- INIT loads INIT into the one channel, clears its ALIGNED, responds (OK, 0) and changes nothing else
(spec/43_init_finish.md R200). -/
def Obligations.InitLoadsOneChannel : Prop :=
  ∀ (n : StorageWidth) (e : Engine n.bits) (ch : BitVec 4), e.Ready → ch.toNat < e.nacc →
    exec (.init ch) ⟨n, e⟩ = .next ⟨n, { e with
      channels := e.channels.set ch.toNat ⟨e.desc.init, false⟩
      responses := e.responses ++ [⟨0, 0⟩] }⟩

/-- FINISH responds (OK, FIN) and changes nothing: FIN is the register XOR XOROUT in reflected mode, and otherwise the aligned view of the
register shifted right by OFFSET, XOR XOROUT (spec/43_init_finish.md R201, R202). -/
def Obligations.FinishReportsFin : Prop :=
  ∀ (n : StorageWidth) (e : Engine n.bits) (ch : BitVec 4) (c : Channel n.bits), e.Ready → e.channel? ch = some c →
    let fin : BitVec n.bits :=
      if e.desc.reflect then c.crc ^^^ e.desc.xorout
      else ((if c.aligned then c.crc else c.crc <<< e.desc.offset) >>> e.desc.offset) ^^^ e.desc.xorout
    exec (.finish ch) ⟨n, e⟩ = .next ⟨n, { e with responses := e.responses ++ [⟨0, fin⟩] }⟩

/-- TABLE_READ responds with the entry as stored and changes nothing (spec/44_table_read.md R220). -/
def Obligations.TableReadReportsTheEntry : Prop :=
  ∀ (n : StorageWidth) (e : Engine n.bits) (idx : Byte), e.Ready →
    exec (.tableRead idx) ⟨n, e⟩ = .next ⟨n, { e with
      responses := e.responses ++ [⟨0, e.desc.table[idx.toNat]'idx.isLt⟩] }⟩

/-- Putting a FINISH or a TABLE_READ that is accepted in front of any commands changes none of their responses and none of the state they
leave (spec/43_init_finish.md R203, spec/44_table_read.md R221).
The rule is one the spec marks as an inference of its own, so this has basis 'derived'.
The commands may run into a CONFIG of invalid width, or start after one: the premise of R251(b) that REFUSED is false is not made, and
that the two runs agree there too is the model's own choice, since the spec gives such runs no meaning: both draw the same free values,
by the counter `draws` (log entries 4 and 9). -/
def Obligations.ReadersChangeNoLaterResponse : Prop :=
  ∀ (n : StorageWidth) (e : Engine n.bits) (reader : Instr) (is : List Instr),
    e.Ready → ((∃ ch : BitVec 4, reader = .finish ch ∧ ch.toNat < e.nacc) ∨ ∃ idx, reader = .tableRead idx) →
    ∃ (a b : Engine n.bits) (r : Response n.bits) (rs : List (Response n.bits)),
      execAll is ⟨n, e⟩ = .next ⟨n, a⟩ ∧ execAll (reader :: is) ⟨n, e⟩ = .next ⟨n, b⟩ ∧
      a.responses = e.responses ++ rs ∧ b.responses = e.responses ++ r :: rs ∧
      b = { a with responses := b.responses }

/-- FINISH is idempotent: any number of FINISH commands on a channel in a row give the same response (spec/43_init_finish.md R203).
The rule is one the spec marks as an inference of its own, so this has basis 'derived'. -/
def Obligations.RepeatedFinishGivesOneValue : Prop :=
  ∀ (n : StorageWidth) (e : Engine n.bits) (ch : BitVec 4) (m : Nat), e.Ready → ch.toNat < e.nacc →
    ∃ v : BitVec n.bits, execAll (List.replicate m (.finish ch)) ⟨n, e⟩ = .next ⟨n, { e with
      responses := e.responses ++ List.replicate m ⟨0, v⟩ }⟩

/-- The value of the empty message: straight after CONFIG, and straight after INIT under the same descriptor, and then after any number of
empty UPDATEs, FIN is the low W bits of init, reversed in reflected mode, XOR xorout (spec/43_init_finish.md R205).
The rule is one the spec marks as an inference of its own, so this has basis 'derived'. -/
def Obligations.EmptyMessageValue : Prop :=
  ∀ (n : StorageWidth) (e : Engine n.bits) (w : BitVec 8) (r : Bool) (poly ini xorout : BitVec maxWidth) (ch : BitVec 4) (m : Nat),
    e.refused = false → ch.toNat < e.nacc → 1 ≤ w.toNat → w.toNat ≤ n.bits →
    let low : BitVec w.toNat := ini.setWidth w.toNat
    let value : BitVec n.bits := (if r then low.reverse else low).setWidth n.bits ^^^ xorout.setWidth n.bits
    (∃ (a : Engine n.bits) (c : Channel n.bits),
      execAll (.config w r poly ini xorout :: List.replicate m (.update ch [])) ⟨n, e⟩ = .next ⟨n, a⟩ ∧
      a.channel? ch = some c ∧ a.desc.fin c = value) ∧
    (e.cfgValid = true →
      e.desc = Descriptor.build w.toNat r (poly.setWidth n.bits) (ini.setWidth n.bits) (xorout.setWidth n.bits) →
      ∃ (a : Engine n.bits) (c : Channel n.bits),
        execAll (.init ch :: List.replicate m (.update ch [])) ⟨n, e⟩ = .next ⟨n, a⟩ ∧
        a.channel? ch = some c ∧ a.desc.fin c = value)

/-- FIN does no masking to W: under a legal configuration every result bit at position W or above is XOROUT's
(spec/43_init_finish.md R204).
The rule is one the spec marks as an inference of its own, so this has basis 'derived'. -/
def Obligations.FinKeepsHighXoroutBits : Prop :=
  ∀ (n : StorageWidth) (e : Engine n.bits) (c : Channel n.bits) (j : Nat),
    e.LegalConfig → c ∈ e.channels → n.bits - e.desc.offset ≤ j →
    (e.desc.fin c).getLsbD j = e.desc.xorout.getLsbD j

/-- Reset correctness: a channel after anything at all, then INIT, then any commands on it, gives the responses that a channel straight
after the CONFIG of the same parameters gives for those commands (spec/43_init_finish.md R206).
The rule is one the spec marks as an inference of its own, so this has basis 'derived'. -/
def Obligations.InitStartsAFreshMessage : Prop :=
  ∀ (n : StorageWidth) (e f : Engine n.bits) (w : BitVec 8) (r : Bool) (poly ini xorout : BitVec maxWidth) (ch : BitVec 4)
    (is : List Instr),
    e.Ready → f.refused = false → ch.toNat < e.nacc → ch.toNat < f.nacc → 1 ≤ w.toNat → w.toNat ≤ n.bits →
    e.desc = Descriptor.build w.toNat r (poly.setWidth n.bits) (ini.setWidth n.bits) (xorout.setWidth n.bits) →
    (∀ i ∈ is, namesChannel ch i = true) →
    ∃ (a b : Engine n.bits) (rs : List (Response n.bits)),
      execAll (.init ch :: is) ⟨n, e⟩ = .next ⟨n, a⟩ ∧
      execAll (.config w r poly ini xorout :: is) ⟨n, f⟩ = .next ⟨n, b⟩ ∧
      a.responses = e.responses ++ ⟨0, 0⟩ :: rs ∧ b.responses = f.responses ++ ⟨0, 0⟩ :: rs ∧
      a.channel? ch = b.channel? ch

/-! ### The whole machine -/

/-- Channels are independent: a command on channel `a` leaves every other channel as it was, and its response, what it leaves in
channel `a` and everything else it does are the same whatever the other channels hold; TABLE_READ writes no channel (spec/20_memory.md R81). -/
def Obligations.ChannelsAreIndependent : Prop :=
  ∀ (n : StorageWidth) (e : Engine n.bits) (i : Instr) (a : BitVec 4), e.refused = false →
    (namesChannel a i = true →
      ∃ e' : Engine n.bits, exec i ⟨n, e⟩ = .next ⟨n, e'⟩ ∧ (∀ b : BitVec 4, b ≠ a → e'.channel? b = e.channel? b) ∧
        ∀ others : List (Channel n.bits), others.length = e.nacc → others[a.toNat]? = e.channel? a →
          ∃ f' : Engine n.bits, exec i ⟨n, { e with channels := others }⟩ = .next ⟨n, f'⟩ ∧
            f' = { e' with channels := f'.channels } ∧ f'.channel? a = e'.channel? a) ∧
    (∀ idx, ∃ e' : Engine n.bits, exec (.tableRead idx) ⟨n, e⟩ = .next ⟨n, e'⟩ ∧ e'.channels = e.channels)

/-- No command but CONFIG writes any part of the descriptor or the table (spec/10_state.md R35). -/
def Obligations.OnlyConfigWritesTheDescriptor : Prop :=
  ∀ (n : StorageWidth) (e : Engine n.bits) (i : Instr), e.refused = false →
    ∃ e' : Engine n.bits, exec i ⟨n, e⟩ = .next ⟨n, e'⟩ ∧
      ((∀ w r poly ini xorout, i ≠ .config w r poly ini xorout) → e'.desc = e.desc) ∧
      (∀ w r poly ini xorout, i = .config w r poly ini xorout → 1 ≤ BitVec.toNat w → BitVec.toNat w ≤ n.bits →
        e'.desc = Descriptor.build w.toNat r (poly.setWidth n.bits) (ini.setWidth n.bits) (xorout.setWidth n.bits))

/-- The instance's parameters are fixed: no step changes the storage width or the number of channels (spec/00_scope.md R6, R10). -/
def Obligations.StepKeepsTheParameters : Prop :=
  ∀ s t : State, step s = .next t → t.width = s.width ∧ t.engine.nacc = s.engine.nacc

/-- The well-formedness of the engine is kept by every step: NACC in 1 to 16, a command in flight incomplete, and, unless REFUSED is true,
CAUSE 0 while ERR is 0, no code above 6, and the representation invariants of a legal configuration, the table generated from POLY
among them (spec/10_state.md R40, R51, spec/60_exceptions.md R231).
R40 is an inference the spec marks as its own, so this has basis 'derived'. -/
def Obligations.EveryStepKeepsTheEngineWellFormed : Prop :=
  ∀ s t : State, s.Inv → step s = .next t → t.Inv

/-- The engine right after reset is well formed, for every instance (spec/10_state.md R53). -/
def Obligations.ResetIsWellFormed : Prop :=
  (∀ (n : StorageWidth) (nacc : Nat), 1 ≤ nacc → nacc ≤ 16 → (State.resetOf n nacc).Inv) ∧ State.reset.Inv

/-- What reset leaves: CFG_VALID, ERR and CAUSE are 0, so STATUS reads 0; the response stream is empty, REFUSED is false, nothing is in
flight. The registers the spec leaves unspecified are not named: that they hold free values is the model's choice (log entry 3), so
this is derived (spec/10_state.md R53). -/
def Obligations.ResetValues : Prop :=
  ∀ (n : StorageWidth) (nacc : Nat),
    let e := (State.resetOf n nacc).engine
    e.status = 0 ∧ e.cfgValid = false ∧ e.err = false ∧ e.cause = 0 ∧ e.responses = [] ∧ e.refused = false ∧
      e.flight = none ∧ e.nacc = nacc

/-- A step with reset asserted: the command in flight is abandoned with the beats already taken, no response appears, STATUS and the
stream are cleared, REFUSED stays as it was, and beats not yet taken are still to come, starting with a header
(spec/70_reset_and_hazards.md R260).
The last three clauses, that the beats presented and not yet taken stay on commandLane, operandLane and byteLane, are the model's own
reading of "Beats that arrive after reset are read as new commands" (DEDUCED, log entry 5), and so is that the step takes the reset
input. -/
def Obligations.ResetAbandonsTheCommandInFlight : Prop :=
  ∀ (n : StorageWidth) (e : Engine n.bits), e.resetLine = true →
    ∃ e' : Engine n.bits, step ⟨n, e⟩ = .next ⟨n, e'⟩ ∧
      e'.flight = none ∧ e'.responses = [] ∧ e'.status = 0 ∧ e'.refused = e.refused ∧ e'.nacc = e.nacc ∧
      e'.resetLine = false ∧ e'.commandLane = e.commandLane ∧ e'.operandLane = e.operandLane ∧ e'.byteLane = e.byteLane

/-- No unspecified reset value is ever observable: two unconfigured engines that differ only in the descriptor and in what their channels
hold give the same responses and the same STATUS for any commands (spec/10_state.md R54).
The rule is one the spec marks as an inference of its own, so this has basis 'derived'.
The commands may run into a CONFIG of invalid width, or start after one: the premise of R251(b) that REFUSED is false is not made, and
that the two runs agree there too is the model's own choice, since the spec gives such runs no meaning: both draw the same free values,
by the counter `draws` (log entries 4 and 9). -/
def Obligations.UnspecifiedValuesAreNeverObserved : Prop :=
  ∀ (n : StorageWidth) (e : Engine n.bits) (d : Descriptor n.bits) (channels : List (Channel n.bits)) (is : List Instr),
    e.cfgValid = false → channels.length = e.nacc →
    ∃ a b : Engine n.bits,
      execAll is ⟨n, e⟩ = .next ⟨n, a⟩ ∧ execAll is ⟨n, { e with desc := d, channels := channels }⟩ = .next ⟨n, b⟩ ∧
      a.responses = b.responses ∧ a.status = b.status ∧ a.refused = b.refused ∧ (a.cfgValid = true → a = b)

/-- ALIGNED cannot be observed: the engine and the variant that stores every loaded non-reflected channel already aligned give the same
responses and the same STATUS for any commands (spec/10_state.md R41).
The rule is one the spec marks as an inference of its own, so this has basis 'derived'.
The commands may run into a CONFIG of invalid width, or start after one: the premise of R251(b) that REFUSED is false is not made, and
that the two runs agree there too is the model's own choice, since the spec gives such runs no meaning: both draw the same free values,
by the counter `draws` (log entries 4 and 9). -/
def Obligations.AlignedCannotBeObserved : Prop :=
  ∀ (n : StorageWidth) (e : Engine n.bits) (is : List Instr),
    ∃ a b : Engine n.bits,
      execAll is ⟨n, e⟩ = .next ⟨n, a⟩ ∧ execAllPreAligned is ⟨n, e.preAligned⟩ = .next ⟨n, b⟩ ∧
      a.responses = b.responses ∧ a.status = b.status

/-- A malformed CONFIG that is in flight (one of its reserved bits, 31:17 or 7:4, is 1) is rejected with RESERVED_FIELD in the step that
finds its last beat, and not before: the beats it lacks are taken, STATUS records the rejection, one response (2, 0) is appended, nothing
else changes, and a CONFIG of invalid width is not refused then; a step that does not find the last beat leaves it in flight with no
response and no STATUS change (spec/60_exceptions.md R233(a), R236, R237, R239, R242, spec/70_reset_and_hazards.md R271). -/
def Obligations.MalformedConfigIsRejectedAtItsLastBeat : Prop :=
  ∀ (n : StorageWidth) (e : Engine n.bits) (f : Flight n.bits),
    e.refused = false → e.resetLine = false → e.flight = some f →
    f.header.extractLsb' 0 4 = 1#4 → (f.header.extractLsb' 17 15 ≠ 0#15 ∨ f.header.extractLsb' 4 4 ≠ 0#4) →
    (3 ≤ f.operands.length + e.operandLane.length →
      step ⟨n, e⟩ = .next ⟨n, { e with
        flight := none
        operandLane := e.operandLane.drop (3 - f.operands.length)
        err := true
        cause := if e.err then e.cause else 2
        responses := e.responses ++ [⟨2, 0⟩] }⟩) ∧
    (f.operands.length + e.operandLane.length < 3 →
      step ⟨n, e⟩ = .next ⟨n, { e with
        flight := some ⟨f.header, f.operands ++ e.operandLane, f.bytes⟩
        operandLane := [] }⟩)
end

