-- ==== Sys2Proof/Laws/Datapath.lean ====
section
/-!
SUPPORT. The algebra of the datapaths: the division steps are linear, a byte step is eight bit steps, and where the bits of
POLY that a legal width leaves 0 stay 0.
-/

namespace Sys2Proof.Machine

/-! ### The steps -/

theorem bitSteps_eq_iterate {N : Nat} (r : Bool) (p : BitVec N) (k : Nat) (v : BitVec N) :
    bitSteps r p k v = (bitStep r p)^[k] v := by
  induction k generalizing v with
  | zero => rfl
  | succ k ih => rw [bitSteps, ih]; rfl

theorem bitSteps_succ_apply {N : Nat} (r : Bool) (p : BitVec N) (k : Nat) (v : BitVec N) :
    bitSteps r p (k + 1) v = bitSteps r p k (bitStep r p v) := rfl

theorem bitSteps_add {N : Nat} (r : Bool) (p : BitVec N) (j k : Nat) (v : BitVec N) :
    bitSteps r p (j + k) v = bitSteps r p k (bitSteps r p j v) := by
  simp only [bitSteps_eq_iterate, Nat.add_comm j k, Function.iterate_add_apply]

theorem bitStepR_xor {N : Nat} (p u v : BitVec N) : bitStepR p (u ^^^ v) = bitStepR p u ^^^ bitStepR p v := by
  unfold bitStepR
  rw [BitVec.getLsbD_xor, BitVec.ushiftRight_xor_distrib]
  cases u.getLsbD 0 <;> cases v.getLsbD 0 <;> simp <;> ac_nf
  simp

theorem bitStepNR_xor {N : Nat} (p u v : BitVec N) : bitStepNR p (u ^^^ v) = bitStepNR p u ^^^ bitStepNR p v := by
  unfold bitStepNR
  rw [BitVec.getLsbD_xor, BitVec.shiftLeft_xor_distrib]
  cases u.getLsbD (N - 1) <;> cases v.getLsbD (N - 1) <;> simp <;> ac_nf
  simp

theorem bitStep_xor {N : Nat} (r : Bool) (p u v : BitVec N) : bitStep r p (u ^^^ v) = bitStep r p u ^^^ bitStep r p v := by
  cases r <;> simp [bitStep, bitStepR_xor, bitStepNR_xor]

/-- The steps are linear over GF(2). -/
theorem bitSteps_xor {N : Nat} (r : Bool) (p : BitVec N) (k : Nat) (u v : BitVec N) :
    bitSteps r p k (u ^^^ v) = bitSteps r p k u ^^^ bitSteps r p k v := by
  induction k generalizing u v with
  | zero => rfl
  | succ k ih => simp only [bitSteps_succ_apply, bitStep_xor, ih]

theorem bitStep_zero {N : Nat} (r : Bool) (p : BitVec N) : bitStep r p 0#N = 0#N := by
  cases r <;> simp [bitStep, bitStepR, bitStepNR]

theorem bitSteps_zero_right {N : Nat} (r : Bool) (p : BitVec N) (k : Nat) : bitSteps r p k 0#N = 0#N := by
  induction k with
  | zero => rfl
  | succ k ih => rw [bitSteps_succ_apply, bitStep_zero, ih]

/-- While the tested bits are 0, the steps only shift. -/
theorem bitSteps_false_of_top_zero {N : Nat} (p : BitVec N) (k : Nat) (v : BitVec N)
    (h : ∀ i, N - k ≤ i → v.getLsbD i = false) : bitSteps false p k v = v <<< k := by
  induction k generalizing v with
  | zero => simp [bitSteps]
  | succ k ih =>
    rw [bitSteps_succ_apply]
    have h1 : bitStep false p v = v <<< 1 := by
      simp [bitStep, bitStepNR, h (N - 1) (by omega)]
    rw [h1, ih, ← BitVec.shiftLeft_add, Nat.add_comm]
    intro i hi
    rw [BitVec.getLsbD_shiftLeft]
    rcases Nat.lt_or_ge i N with hN | hN
    · by_cases h0 : i < 1
      · simp [h0]
      · simp [h (i - 1) (by omega)]
    · simp; omega

/-- While the tested bits are 0, the steps only shift. -/
theorem bitSteps_true_of_low_zero {N : Nat} (p : BitVec N) (k : Nat) (v : BitVec N)
    (h : ∀ i < k, v.getLsbD i = false) : bitSteps true p k v = v >>> k := by
  induction k generalizing v with
  | zero => simp [bitSteps]
  | succ k ih =>
    rw [bitSteps_succ_apply]
    have h1 : bitStep true p v = v >>> 1 := by
      simp only [bitStep, bitStepR, h 0 (by omega)]; simp
    rw [h1, ih, ← BitVec.shiftRight_add, Nat.add_comm]
    intro i hi
    rw [BitVec.getLsbD_ushiftRight]
    exact h _ (by omega)

/-! ### The table -/

theorem placeByte_xor (N : Nat) (r : Bool) (a b : Byte) : placeByte N r (a ^^^ b) = placeByte N r a ^^^ placeByte N r b := by
  cases r <;> simp [placeByte, inLowByte, inTopByte, BitVec.setWidth_xor, BitVec.shiftLeft_xor_distrib]

/-- GEN is linear over GF(2). -/
theorem gen_xor {N : Nat} (r : Bool) (p : BitVec N) (a b : Byte) : gen r p (a ^^^ b) = gen r p a ^^^ gen r p b := by
  simp only [gen, placeByte_xor, bitSteps_xor]

theorem gen_zero {N : Nat} (r : Bool) (p : BitVec N) : gen r p 0 = 0 := by
  have : placeByte N r 0 = 0#N := by cases r <;> simp [placeByte, inLowByte, inTopByte]
  rw [gen, this, bitSteps_zero_right]; rfl

theorem getElem_genTable {N : Nat} (r : Bool) (p : BitVec N) (i : Nat) (h : i < 256) :
    (genTable r p)[i] = gen r p (BitVec.ofNat 8 i) := by
  rw [genTable, Vector.getElem_ofFn]

/-- An entry of a table that CONFIG generated. -/
theorem entry_of_table {N : Nat} {d : Descriptor N} {r : Bool} {p : BitVec N} (h : d.table = genTable r p) (i : Byte) :
    d.entry i = gen r p i := by
  simp [Descriptor.entry, h, getElem_genTable]

theorem entry_build {N : Nat} (W : Nat) (r : Bool) (poly ini xorout : BitVec N) (i : Byte) :
    (Descriptor.build W r poly ini xorout).entry i = gen r (transformPoly r (N - W) poly) i := by
  apply entry_of_table; rw [Descriptor.build]

/-- Eight non-reflected steps are one table step. -/
theorem bitSteps_byteNR {N : Nat} (hN : 8 ≤ N) (p crc : BitVec N) (b : Byte) :
    bitSteps false p 8 (crc ^^^ inTopByte N b) = (crc <<< 8) ^^^ gen false p (highByte crc ^^^ b) := by
  have h : crc ^^^ inTopByte N b = ((crc <<< 8) >>> 8) ^^^ inTopByte N (highByte crc ^^^ b) := by
    ext i hi
    simp only [inTopByte, highByte, BitVec.getElem_xor, BitVec.getElem_shiftLeft, BitVec.getElem_ushiftRight,
      BitVec.getElem_setWidth, BitVec.getLsbD_xor, BitVec.getLsbD_setWidth, BitVec.getLsbD_ushiftRight, BitVec.getLsbD_shiftLeft]
    by_cases h1 : i < N - 8
    · have : 8 + i < N := by omega
      simp [h1, this, BitVec.getLsbD_eq_getElem hi]
    · have h2 : ¬ (8 + i < N) := by omega
      have h3 : i - (N - 8) < 8 := by omega
      have h4 : N - 8 + (i - (N - 8)) = i := by omega
      simp [h1, h2, h3, h4, BitVec.getLsbD_eq_getElem hi]
  rw [h, bitSteps_xor, bitSteps_false_of_top_zero]
  · rw [gen]
    congr 1
    ext i hi
    simp only [BitVec.getElem_shiftLeft, BitVec.getElem_ushiftRight, BitVec.getLsbD_shiftLeft]
    by_cases h8 : i < 8
    · simp [h8]
    · have h2 : 8 + (i - 8) < N := by omega
      simp [h8, h2, BitVec.getLsbD_eq_getElem (show i - 8 < N by omega)]
  · intro i hi
    rw [BitVec.getLsbD_ushiftRight, BitVec.getLsbD_shiftLeft]
    simp; omega

/-- Eight reflected steps are one table step. -/
theorem bitSteps_byteR {N : Nat} (p crc : BitVec N) (b : Byte) :
    bitSteps true p 8 (crc ^^^ inLowByte N b) = (crc >>> 8) ^^^ gen true p (lowByte crc ^^^ b) := by
  have h : crc ^^^ inLowByte N b = ((crc >>> 8) <<< 8) ^^^ inLowByte N (lowByte crc ^^^ b) := by
    ext i hi
    simp only [inLowByte, lowByte, BitVec.getElem_xor, BitVec.getElem_shiftLeft, BitVec.getElem_ushiftRight,
      BitVec.getElem_setWidth, BitVec.getLsbD_xor, BitVec.getLsbD_setWidth]
    by_cases h1 : i < 8
    · simp [h1, BitVec.getLsbD_eq_getElem hi]
    · have h4 : 8 + (i - 8) = i := by omega
      simp [h1, h4, BitVec.getLsbD_eq_getElem hi]
  rw [h, bitSteps_xor, bitSteps_true_of_low_zero]
  · rw [gen]
    congr 1
    ext i hi
    simp only [BitVec.getElem_ushiftRight, BitVec.getLsbD_shiftLeft, BitVec.getLsbD_ushiftRight]
    rw [show 8 + (8 + i - 8) = 8 + i by omega]
    by_cases h2 : 8 + i < N
    · simp [h2]
    · simp [h2, BitVec.getLsbD_of_ge crc (8 + i) (by omega)]
  · intro i hi
    rw [BitVec.getLsbD_shiftLeft]
    simp [hi]

/-! ### Bits that stay 0 -/

theorem toNat_lt_iff_high {N : Nat} (W : Nat) (v : BitVec N) : v.toNat < 2 ^ W ↔ ∀ j, W ≤ j → v.getLsbD j = false := by
  constructor
  · intro h j hj
    rw [BitVec.getLsbD, Nat.testBit_lt_two_pow (lt_of_lt_of_le h (Nat.pow_le_pow_right (by omega) hj))]
  · intro h
    exact Nat.lt_pow_two_of_testBit _ fun j hj => h j hj

/-- Reflected: at positions where POLY is 0, the steps only shift. -/
theorem getLsbD_bitSteps_true {N : Nat} {W : Nat} {p : BitVec N} (hp : ∀ j, W ≤ j → p.getLsbD j = false)
    (k : Nat) (v : BitVec N) {j : Nat} (hj : W ≤ j) : (bitSteps true p k v).getLsbD j = v.getLsbD (j + k) := by
  induction k generalizing v with
  | zero => rfl
  | succ k ih =>
    rw [bitSteps_succ_apply, ih]
    simp only [bitStep, bitStepR, if_true]
    split
    · rw [BitVec.getLsbD_xor, hp _ (by omega), BitVec.getLsbD_ushiftRight]; simp; congr 1; omega
    · rw [BitVec.getLsbD_ushiftRight]; congr 1; omega

/-- Non-reflected: below OFFSET, where POLY is 0, the steps only shift. -/
theorem getLsbD_bitSteps_false {N : Nat} {off : Nat} (ho : off ≤ N) {p : BitVec N} (hp : ∀ j < off, p.getLsbD j = false)
    (k : Nat) (v : BitVec N) {j : Nat} (hj : j < off) : (bitSteps false p k v).getLsbD j = (v <<< k).getLsbD j := by
  induction k generalizing v with
  | zero => simp [bitSteps]
  | succ k ih =>
    have hj' : j < N := by omega
    rw [bitSteps_succ_apply, ih, BitVec.getLsbD_shiftLeft, BitVec.getLsbD_shiftLeft]
    by_cases hk : j < k
    · simp [hk, show j < k + 1 by omega]
    · have : (bitStep false p v).getLsbD (j - k) = (v <<< 1).getLsbD (j - k) := by
        simp only [bitStep, bitStepNR, Bool.false_eq_true, if_false]
        split
        · rw [BitVec.getLsbD_xor, hp _ (by omega), Bool.xor_false]
        · rfl
      rw [this, BitVec.getLsbD_shiftLeft]
      by_cases h1 : j - k < 1
      · simp [h1, hk, hj', show j < k + 1 by omega]
      · simp [hk, hj', show ¬ j < k + 1 by omega, show j - k < N by omega, show j - k - 1 = j - (k+1) by omega]; omega

theorem gen_true_lt {N : Nat} {W : Nat} {p : BitVec N} (hp : ∀ j, W ≤ j → p.getLsbD j = false) (i : Byte) {j : Nat}
    (hj : W ≤ j) : (gen true p i).getLsbD j = false := by
  rw [gen, getLsbD_bitSteps_true hp 8 _ hj]; simp [placeByte, inLowByte]

theorem gen_false_low {N : Nat} {off : Nat} (ho : off < N) {p : BitVec N} (hp : ∀ j < off, p.getLsbD j = false) (i : Byte)
    {j : Nat} (hj : j < off) : (gen false p i).getLsbD j = false := by
  rw [gen, getLsbD_bitSteps_false (by omega) hp 8 _ hj]; simp [placeByte, inTopByte]; omega

theorem transformPoly_true_high {N : Nat} {W : Nat} (p : BitVec N) {j : Nat} (hj : W ≤ j) :
    (transformPoly true (N - W) p).getLsbD j = false := by
  simp [transformPoly, rev, BitVec.getLsbD_reverse, BitVec.getMsbD_eq_getLsbD]; omega

theorem transformPoly_false_low {N : Nat} (off : Nat) (p : BitVec N) {j : Nat} (hj : j < off) :
    (transformPoly false off p).getLsbD j = false := by
  simp [transformPoly]; omega

/-! ### POLY of 0, and the partial byte -/

theorem bitSteps_zero_poly_true {N : Nat} (k : Nat) (v : BitVec N) : bitSteps true 0 k v = v >>> k := by
  induction k generalizing v with
  | zero => simp [bitSteps]
  | succ k ih => rw [bitSteps_succ_apply, ih]; simp [bitStep, bitStepR, ← BitVec.shiftRight_add, Nat.add_comm]

theorem bitSteps_zero_poly_false {N : Nat} (k : Nat) (v : BitVec N) : bitSteps false 0 k v = v <<< k := by
  induction k generalizing v with
  | zero => simp [bitSteps]
  | succ k ih => rw [bitSteps_succ_apply, ih]; simp [bitStep, bitStepNR, ← BitVec.shiftLeft_add, Nat.add_comm]

/-- The partial byte does not depend on the bits below `k`. -/
theorem partialByte_congr {b1 b2 : Byte} {k : Nat} (h : ∀ j, k ≤ j → b1.getLsbD j = b2.getLsbD j) :
    partialByte b1 k = partialByte b2 k := by
  ext j hj
  simp only [partialByte, BitVec.getElem_and, BitVec.getElem_shiftLeft]
  by_cases hk : j < k
  · simp [hk]
  · have := h j (by omega)
    simp only [BitVec.getLsbD_eq_getElem hj] at this
    rw [this]

/-- Eight message bits through the bit unit are one byte step. -/
theorem feedBits_full {N : Nat} (hN : 8 ≤ N) {d : Descriptor N} (hr : d.reflect = false) (ht : d.table = genTable false d.poly)
    (c : Channel N) (b : Byte) :
    d.feedBits c b 0 = d.feedBytes c [b] := by
  have : partialByte b 0 = b := by
    ext j hj
    simp only [partialByte, BitVec.getElem_and, BitVec.getElem_shiftLeft]
    simp
    have : j < 8 := hj
    interval_cases j <;> simp
  simp only [Descriptor.feedBits, Descriptor.feedBytes, this, hr]
  simp only [Nat.sub_zero, bitSteps_byteNR hN, List.cons_ne_nil, if_false, List.foldl_cons, List.foldl_nil,
    Descriptor.byteStepNR, entry_of_table ht]
  rfl

end Sys2Proof.Machine
end

