-- ==== Sys2Proof/Laws/Feed.lean ====
section
/-!
SUPPORT. What feeding and finishing a channel do: alignment happens once, an UPDATE of two pieces is the UPDATEs of the
pieces, and under a legal configuration a channel stays legal.
-/

namespace Sys2Proof.Machine

variable {N : Nat}

/-! ### Alignment and FIN -/

theorem align_align (d : Descriptor N) (c : Channel N) : d.align (d.align c) = d.align c := by
  unfold Descriptor.align; split <;> simp_all

/-- FIN looks at the aligned view. -/
theorem fin_align (d : Descriptor N) (c : Channel N) (hr : d.reflect = false) : d.fin (d.align c) = d.fin c := by
  simp [Descriptor.fin, hr, align_align]

/-! ### Feeding bytes -/

theorem feedBytes_nil (d : Descriptor N) (c : Channel N) : d.feedBytes c [] = c := rfl

theorem feedBytes_append (d : Descriptor N) (c : Channel N) (x y : List Byte) :
    d.feedBytes c (x ++ y) = d.feedBytes (d.feedBytes c x) y := by
  unfold Descriptor.feedBytes Descriptor.align
  by_cases hx : x = []
  · simp [hx]
  · by_cases hy : y = []
    · simp [hy]
    · cases d.reflect <;> simp [hx, hy]

/-- Feeding the aligned view leaves the same view. -/
theorem align_feedBytes (d : Descriptor N) (c : Channel N) (hr : d.reflect = false) (data : List Byte) :
    d.align (d.feedBytes (d.align c) data) = d.align (d.feedBytes c data) := by
  unfold Descriptor.feedBytes
  by_cases h : data = []
  · simp [h, align_align]
  · simp [h, hr, align_align]

/-! ### Legal configurations -/

/-- CONFIG of a legal width leaves a legal descriptor (spec/10_state.md R40). -/
theorem build_legal {W : Nat} (hW : 1 ≤ W) (hN : W ≤ N) (r : Bool) (poly ini xorout : BitVec N) :
    (Descriptor.build W r poly ini xorout).Legal := by
  refine ⟨?_, rfl, ?_⟩
  · simp [Descriptor.build]; omega
  · cases r
    · intro i hi; exact transformPoly_false_low _ _ hi
    · refine ⟨?_, ?_⟩
      · rw [toNat_lt_iff_high]
        intro j hj
        simp only [Descriptor.width, Descriptor.build] at hj
        exact transformPoly_true_high _ (by omega)
      · rw [toNat_lt_iff_high]
        intro j hj
        simp only [Descriptor.width, Descriptor.build] at hj
        simp only [Descriptor.build, transformInit, if_true]
        rw [BitVec.getLsbD_ushiftRight, BitVec.getLsbD_of_ge _ _ (by omega)]

theorem fresh_legal (d : Descriptor N) (h : d.Legal) : d.freshChannel.Legal d := by
  unfold Channel.Legal Descriptor.freshChannel
  obtain ⟨h1, h2, h3⟩ := h
  cases hr : d.reflect
  · simp
  · simp [hr] at h3 ⊢; exact h3.2

theorem byteStepR_high {d : Descriptor N} {W : Nat} (hp : ∀ j, W ≤ j → d.poly.getLsbD j = false)
    (ht : d.table = genTable true d.poly) (v : BitVec N) (b : Byte)
    (hv : ∀ j, W ≤ j → v.getLsbD j = false) : ∀ j, W ≤ j → (d.byteStepR v b).getLsbD j = false := by
  intro j hj
  rw [Descriptor.byteStepR, BitVec.getLsbD_xor, BitVec.getLsbD_ushiftRight, hv _ (by omega), entry_of_table ht,
      gen_true_lt hp _ hj]; rfl

theorem byteStepNR_low {d : Descriptor N} {off : Nat} (ho : off < N) (hp : ∀ j < off, d.poly.getLsbD j = false)
    (ht : d.table = genTable false d.poly) (v : BitVec N) (b : Byte)
    (hv : ∀ j < off, v.getLsbD j = false) : ∀ j < off, (d.byteStepNR v b).getLsbD j = false := by
  intro j hj
  rw [Descriptor.byteStepNR, BitVec.getLsbD_xor, BitVec.getLsbD_shiftLeft, entry_of_table ht, gen_false_low ho hp _ hj]
  by_cases h : j < 8
  · simp [h]
  · simp [h, hv (j - 8) (by omega)]

/-- The aligned view of a legal channel has its low bits 0. -/
theorem align_low {d : Descriptor N} {c : Channel N} (hc : c.Legal d) (hr : d.reflect = false) :
    LowBitsZero d.offset (d.align c).crc := by
  unfold Channel.Legal at hc
  simp only [hr, Bool.false_eq_true, if_false] at hc
  unfold Descriptor.align
  split
  · next h => simpa [h] using hc
  · intro i hi; simp; omega

theorem feedBytes_legal {d : Descriptor N} {c : Channel N} (hd : d.Legal) (hc : c.Legal d) (data : List Byte) :
    (d.feedBytes c data).Legal d := by
  unfold Descriptor.feedBytes
  split
  · exact hc
  · obtain ⟨h1, h2, h3⟩ := hd
    cases hr : d.reflect
    · simp only [Bool.false_eq_true, if_false]
      unfold Channel.Legal
      simp only [hr, Bool.false_eq_true, if_false, if_true] at h3 ⊢
      have := align_low hc hr
      generalize (d.align c).crc = v at this ⊢
      rw [hr] at h2
      induction data generalizing v with
      | nil => exact this
      | cons b bs ih =>
        by_cases hbs : bs = []
        · subst hbs; exact byteStepNR_low h1 h3 h2 v b this
        · exact ih hbs _ (byteStepNR_low h1 h3 h2 v b this)
    · simp only [if_true]
      unfold Channel.Legal at hc ⊢
      simp only [hr, if_true] at hc h3 ⊢
      refine ⟨?_, hc.2⟩
      have := (toNat_lt_iff_high _ _).mp hc.1
      rw [toNat_lt_iff_high]
      have hp := (toNat_lt_iff_high _ _).mp h3.1
      generalize c.crc = v at this ⊢
      rw [hr] at h2
      induction data generalizing v with
      | nil => exact this
      | cons b bs ih =>
        by_cases hbs : bs = []
        · subst hbs; exact byteStepR_high hp h2 v b this
        · exact ih hbs _ (byteStepR_high hp h2 v b this)

theorem feedBits_legal {d : Descriptor N} {c : Channel N} (hN : 8 ≤ N) (hd : d.Legal) (hc : c.Legal d)
    (hr : d.reflect = false) (bits : Byte) (k : Nat) (hk : k < 8) : (d.feedBits c bits k).Legal d := by
  obtain ⟨h1, h2, h3⟩ := hd
  unfold Descriptor.feedBits Channel.Legal
  simp only [hr, Bool.false_eq_true, if_false, if_true] at h3 ⊢
  intro j hj
  rw [getLsbD_bitSteps_false (by omega) h3 _ _ hj, BitVec.shiftLeft_xor_distrib, BitVec.getLsbD_xor,
      BitVec.getLsbD_shiftLeft, BitVec.getLsbD_shiftLeft]
  by_cases h : j < 8 - k
  · simp [h]
  · have := align_low hc hr (j - (8 - k)) (by omega)
    simp only [this, inTopByte, BitVec.getLsbD_shiftLeft, BitVec.getLsbD_setWidth, partialByte, BitVec.getLsbD_and]
    by_cases h2 : j - (8 - k) < N - 8
    · simp [h2]
    · have : j - (8 - k) - (N - 8) < k := by omega
      simp [this]

end Sys2Proof.Machine
end

