-- ==== Sys2Proof/Laws/BitSerial.lean ====
section
/-!
SUPPORT. The datapath bit by bit: a channel of width `W` in an `N`-bit register, seen as a `W`-bit register that takes one
message bit at a time (spec/42_update_bits.md R188, spec/40_descriptor.md R147).
-/

namespace Sys2Proof.Machine

variable {N W : Nat}

/-- One message bit on a reflected `W`-bit register: `bitrefStep`'s mirror image. -/
def bitrefR (p c : BitVec W) (b : Bool) : BitVec W := if (c.getLsbD 0).xor b then (c >>> 1) ^^^ p else c >>> 1

/-! ### One bit at a time -/

theorem getLsbD_view (c : BitVec W) (j : Nat) :
    (c.setWidth N <<< (N - W)).getLsbD j = (decide (j < N) && !decide (j < N - W) && c.getLsbD (j - (N - W))) := by
  rw [BitVec.getLsbD_shiftLeft, BitVec.getLsbD_setWidth]
  by_cases h1 : j < N <;> by_cases h2 : j < N - W <;> simp [h1, h2]
  intros; omega

/-- Non-reflected steps after message bits are placed from the top of the register. -/
theorem bitSteps_false_eq_foldl (h1 : 1 ≤ W) (hW : W ≤ N) (p c : BitVec W) (bs : List Bool) (x : BitVec N)
    (hx : ∀ i < N, x.getLsbD (N - 1 - i) = bs.getD i false) (hbs : bs.length ≤ N) :
    bitSteps false (p.setWidth N <<< (N - W)) bs.length (c.setWidth N <<< (N - W) ^^^ x) =
      (bs.foldl (bitrefStep p) c).setWidth N <<< (N - W) := by
  induction bs generalizing c x with
  | nil =>
    have : x = 0#N := by
      apply BitVec.eq_of_getLsbD_eq; intro i hi
      have := hx (N - 1 - i) (by omega)
      rw [show N - 1 - (N - 1 - i) = i by omega] at this
      simpa using this
    subst this; simp [bitSteps]
  | cons b bs ih =>
    rw [List.length_cons] at hbs
    rw [List.length_cons, bitSteps_succ_apply, List.foldl_cons, ← ih (bitrefStep p c b) (x <<< 1)]
    · congr 1
      have htop : (c.setWidth N <<< (N - W) ^^^ x).getLsbD (N - 1) = (c.getLsbD (W - 1)).xor b := by
        have := hx 0 (by omega)
        simp only [Nat.sub_zero, List.getD_cons_zero] at this
        rw [BitVec.getLsbD_xor, getLsbD_view, this]
        simp [show N - 1 < N by omega, show ¬ N - 1 < N - W by omega, show N - 1 - (N - W) = W - 1 by omega]
      have hsh : (c.setWidth N <<< (N - W)) <<< 1 = (c <<< 1).setWidth N <<< (N - W) := by
        apply BitVec.eq_of_getLsbD_eq; intro i hi
        rw [getLsbD_view, BitVec.getLsbD_shiftLeft, getLsbD_view, BitVec.getLsbD_shiftLeft]
        by_cases h0 : i < N - W
        · simp [h0, show i - 1 < N - W by omega]
        · by_cases h3 : i - (N - W) < 1
          · have : i = N - W := by omega
            simp [hi, h0, h3]; intros; omega
          · simp [hi, h0, h3, show ¬ i < 1 by omega, show i - 1 < N by omega, show ¬ (i - 1 < N - W) by omega,
                show i - 1 - (N - W) = i - (N - W) - 1 by omega, show i - (N - W) < W by omega]
      simp only [bitStep, bitStepNR, Bool.false_eq_true, if_false, htop]
      unfold bitrefStep
      split
      · rw [BitVec.shiftLeft_xor_distrib, hsh, BitVec.setWidth_xor, BitVec.shiftLeft_xor_distrib]; ac_rfl
      · rw [BitVec.shiftLeft_xor_distrib, hsh]
    · intro i hi
      rw [BitVec.getLsbD_shiftLeft]
      by_cases h0 : i + 1 < N
      · have := hx (i + 1) h0
        rw [List.getD_cons_succ] at this
        rw [← this]
        simp [show ¬ N - 1 - i < 1 by omega, show N - 1 - i < N by omega, show N - 1 - i - 1 = N - 1 - (i + 1) by omega]
      · have : N - 1 - i < 1 := by omega
        simp [this, List.getElem?_eq_none (show bs.length ≤ i by omega)]
    · omega

/-- Reflected steps after message bits are placed from the bottom of the register. -/
theorem bitSteps_true_eq_foldl (hW : W ≤ N) (p c : BitVec W) (bs : List Bool) (x : BitVec N)
    (hx : ∀ i < N, x.getLsbD i = bs.getD i false) (hbs : bs.length ≤ N) :
    bitSteps true (p.setWidth N) bs.length (c.setWidth N ^^^ x) = (bs.foldl (bitrefR p) c).setWidth N := by
  induction bs generalizing c x with
  | nil =>
    have : x = 0#N := by
      apply BitVec.eq_of_getLsbD_eq; intro i hi
      simpa using hx i hi
    subst this; simp [bitSteps]
  | cons b bs ih =>
    rw [List.length_cons] at hbs
    rw [List.length_cons, bitSteps_succ_apply, List.foldl_cons, ← ih (bitrefR p c b) (x >>> 1)]
    · congr 1
      have htop : (c.setWidth N ^^^ x).getLsbD 0 = (c.getLsbD 0).xor b := by
        have := hx 0 (by omega)
        simp only [List.getD_cons_zero] at this
        rw [BitVec.getLsbD_xor, this, BitVec.getLsbD_setWidth]
        simp [show 0 < N by omega]
      have hsh : (c.setWidth N) >>> 1 = (c >>> 1).setWidth N := by
        apply BitVec.eq_of_getLsbD_eq; intro i hi
        simp only [BitVec.getLsbD_ushiftRight, BitVec.getLsbD_setWidth, hi]
        by_cases h : 1 + i < N
        · simp [h]
        · simp [h, BitVec.getLsbD_of_ge c (1 + i) (by omega)]
      simp only [bitStep, bitStepR, if_true, htop]
      unfold bitrefR
      split
      · rw [BitVec.ushiftRight_xor_distrib, hsh, BitVec.setWidth_xor]; ac_rfl
      · rw [BitVec.ushiftRight_xor_distrib, hsh]
    · intro i hi
      rw [BitVec.getLsbD_ushiftRight]
      by_cases h0 : 1 + i < N
      · have := hx (1 + i) h0
        rw [Nat.add_comm 1 i, List.getD_cons_succ] at this
        rw [Nat.add_comm]; exact this
      · rw [BitVec.getLsbD_of_ge _ _ (by omega)]
        simp [List.getD, List.getElem?_eq_none (show bs.length ≤ i by omega)]
    · omega

/-! ### A channel and its `W`-bit register -/

/-- The bits of a byte, least significant first. -/
def byteBitsR (b : Byte) : List Bool := (byteBits b).reverse

/-- One byte on the `W`-bit register. -/
def byteRef (r : Bool) (p : BitVec W) (c : BitVec W) (b : Byte) : BitVec W :=
  if r then (byteBitsR b).foldl (bitrefR p) c else (byteBits b).foldl (bitrefStep p) c

/-- The channel `x` holds the `W`-bit register `c`: in its low bits in reflected mode, in the high bits of its aligned view
otherwise. -/
def Sees (r : Bool) (d : Descriptor N) (x : Channel N) (c : BitVec W) : Prop :=
  if r then x.crc = c.setWidth N else (d.align x).crc = c.setWidth N <<< (N - W)

theorem getLsbD_inTopByte (hN : 8 ≤ N) (b : Byte) :
    ∀ i < N, (inTopByte N b).getLsbD (N - 1 - i) = (byteBits b).getD i false := by
  intro i hi
  rw [inTopByte, BitVec.getLsbD_shiftLeft]
  by_cases h : i < 8
  · rw [BitVec.getLsbD_setWidth, show N - 1 - i - (N - 8) = 7 - i by omega]
    simp [show N - 1 - i < N by omega, show ¬ N - 1 - i < N - 8 by omega, show 7 - i < N by omega]
    interval_cases i <;> rfl
  · simp [show N - 1 - i < N - 8 by omega,
        List.getElem?_eq_none (show (byteBits b).length ≤ i by simp [byteBits]; omega)]

theorem getLsbD_inLowByte (b : Byte) : ∀ i < N, (inLowByte N b).getLsbD i = (byteBitsR b).getD i false := by
  intro i hi
  rw [inLowByte, BitVec.getLsbD_setWidth]
  by_cases h : i < 8
  · simp only [hi, decide_true, Bool.true_and]
    interval_cases i <;> rfl
  · simp [BitVec.getLsbD_of_ge b i (by omega),
        List.getElem?_eq_none (show (byteBitsR b).length ≤ i by simp [byteBitsR, byteBits]; omega)]

/-- The raw `poly` or `init` as a `W`-bit register holds it. -/
def polyW (r : Bool) (W : Nat) (poly : BitVec N) : BitVec W := if r then (poly.setWidth W).reverse else poly.setWidth W

theorem transformPoly_false_eq (hW : W ≤ N) (poly : BitVec N) :
    transformPoly false (N - W) poly = (poly.setWidth W).setWidth N <<< (N - W) := by
  simp only [transformPoly, Bool.false_eq_true, if_false]
  apply BitVec.eq_of_getLsbD_eq; intro i hi
  rw [getLsbD_view, BitVec.getLsbD_shiftLeft, BitVec.getLsbD_setWidth]
  by_cases h : i < N - W
  · simp [h]
  · simp [h, show i - (N - W) < W by omega]

theorem transformPoly_true_eq (hW : W ≤ N) (poly : BitVec N) :
    transformPoly true (N - W) poly = ((poly.setWidth W).reverse).setWidth N := by
  simp only [transformPoly, if_true, rev]
  apply BitVec.eq_of_getLsbD_eq; intro i hi
  rw [BitVec.getLsbD_setWidth, BitVec.getLsbD_reverse, BitVec.getLsbD_reverse, BitVec.getMsbD_eq_getLsbD,
      BitVec.getMsbD_eq_getLsbD, BitVec.getLsbD_shiftLeft, BitVec.getLsbD_setWidth]
  by_cases h : i < W
  · simp [h, hi, show N - 1 - i < N by omega, show ¬ N - 1 - i < N - W by omega,
        show N - 1 - i - (N - W) = W - 1 - i by omega, show W - 1 - i < W by omega]
  · simp [h, hi, show N - 1 - i < N - W by omega]

/-- UPDATE's bytes, on the `W`-bit register. -/
theorem sees_feedBytes (hN : 8 ≤ N) (h1 : 1 ≤ W) (hW : W ≤ N) (r : Bool) (poly ini xorout : BitVec N)
    {x : Channel N} {c : BitVec W} (hs : Sees r (Descriptor.build W r poly ini xorout) x c) (data : List Byte) :
    Sees r (Descriptor.build W r poly ini xorout) ((Descriptor.build W r poly ini xorout).feedBytes x data)
      (data.foldl (byteRef r (polyW r W poly)) c) := by
  by_cases hd : data = []
  · subst hd; exact hs
  unfold Descriptor.feedBytes
  rw [if_neg hd]
  have hr : (Descriptor.build W r poly ini xorout).reflect = r := rfl
  rw [hr]
  clear hd
  cases r
  · simp only [Sees, Bool.false_eq_true, if_false, Descriptor.align, if_true] at hs ⊢
    rw [hs]; clear hs
    induction data generalizing c with
    | nil => rfl
    | cons b bs ih =>
      rw [List.foldl_cons, List.foldl_cons, ← ih]
      congr 1
      unfold Descriptor.byteStepNR
      rw [entry_build, ← bitSteps_byteNR hN, transformPoly_false_eq hW]
      exact bitSteps_false_eq_foldl h1 hW _ c (byteBits b) _ (getLsbD_inTopByte hN b) hN
  · simp only [Sees, if_true] at hs ⊢
    rw [hs]; clear hs
    induction data generalizing c with
    | nil => rfl
    | cons b bs ih =>
      rw [List.foldl_cons, List.foldl_cons, ← ih]
      congr 1
      unfold Descriptor.byteStepR
      rw [entry_build, ← bitSteps_byteR, transformPoly_true_eq hW]
      exact bitSteps_true_eq_foldl hW _ c (byteBitsR b) _ (getLsbD_inLowByte b) hN

/-- UPDATE_BITS' message bits, on the `W`-bit register. -/
theorem sees_feedBits (hN : 8 ≤ N) (h1 : 1 ≤ W) (hW : W ≤ N) (poly ini xorout : BitVec N) {x : Channel N} {c : BitVec W}
    (hs : Sees false (Descriptor.build W false poly ini xorout) x c) (bits : Byte) (k : Nat) (hk : k < 8) :
    Sees false (Descriptor.build W false poly ini xorout) ((Descriptor.build W false poly ini xorout).feedBits x bits k)
      (((byteBits bits).take (8 - k)).foldl (bitrefStep (polyW false W poly)) c) := by
  simp only [Sees, Bool.false_eq_true, if_false] at hs ⊢
  unfold Descriptor.feedBits
  rw [hs]
  have hp : (Descriptor.build W false poly ini xorout).poly = ((poly.setWidth W).setWidth N <<< (N - W)) :=
      transformPoly_false_eq hW poly
  rw [hp]
  have hl : ((byteBits bits).take (8 - k)).length = 8 - k := by simp [byteBits]
  have := bitSteps_false_eq_foldl h1 hW (poly.setWidth W) c ((byteBits bits).take (8 - k)) (inTopByte N (partialByte bits k)) ?_
      (by omega)
  · rw [hl] at this
    simp only [Descriptor.align, if_true]
    exact this
  · intro i hi
    rw [getLsbD_inTopByte hN _ i hi]
    simp only [List.getD_eq_getElem?_getD, List.getElem?_take]
    by_cases h8 : i < 8
    · have key : ∀ b : Byte, (byteBits b)[i]?.getD false = b.getLsbD (7 - i) := by
        intro b; interval_cases i <;> rfl
      rw [key]
      simp only [partialByte, BitVec.getLsbD_and, BitVec.getLsbD_shiftLeft]
      by_cases h : i < 8 - k
      · rw [if_pos h, key]
        have : ((0xFF : Byte)).getLsbD (7 - i - k) = true := by
          have : 7 - i - k < 8 := by omega
          generalize 7 - i - k = j at this
          interval_cases j <;> rfl
        simp [show 7 - i < 8 by omega, show ¬ 7 - i < k by omega]
        exact fun _ => this
      · rw [if_neg h]; simp; intros; omega
    · rw [if_neg (by omega), List.getElem?_eq_none (by simp [byteBits]; omega)]

/-- FIN, on the `W`-bit register. -/
theorem sees_fin (hW : W ≤ N) (r : Bool) (poly ini xorout : BitVec N) {x : Channel N} {c : BitVec W}
    (hs : Sees r (Descriptor.build W r poly ini xorout) x c) :
    (Descriptor.build W r poly ini xorout).fin x = c.setWidth N ^^^ xorout := by
  unfold Descriptor.fin
  have hr : (Descriptor.build W r poly ini xorout).reflect = r := rfl
  rw [hr]
  cases r
  · simp only [Sees, Bool.false_eq_true, if_false] at hs ⊢
    rw [hs]
    show _ ^^^ xorout = _
    congr 1
    apply BitVec.eq_of_getLsbD_eq; intro i hi
    show ((c.setWidth N <<< (N - W)) >>> (N - W)).getLsbD i = _
    rw [BitVec.getLsbD_ushiftRight, getLsbD_view, BitVec.getLsbD_setWidth]
    by_cases h : i < W
    · simp [hi, show N - W + i < N by omega]
    · simp [BitVec.getLsbD_of_ge c i (by omega), hi]
  · simp only [Sees, if_true] at hs ⊢
    rw [hs]; rfl

/-- A channel just loaded from INIT, on the `W`-bit register. -/
theorem sees_fresh (hW : W ≤ N) (r : Bool) (poly ini xorout : BitVec N) :
    Sees r (Descriptor.build W r poly ini xorout) (Descriptor.build W r poly ini xorout).freshChannel
      (polyW r W ini) := by
  cases r
  · simp only [Sees, Bool.false_eq_true, if_false, Descriptor.freshChannel, Descriptor.align, Descriptor.build,
        transformInit, polyW]
    exact transformPoly_false_eq hW ini
  · simp only [Sees, if_true, Descriptor.freshChannel, Descriptor.build, transformInit, polyW, rev]
    apply BitVec.eq_of_getLsbD_eq; intro i hi
    rw [BitVec.getLsbD_ushiftRight, BitVec.getLsbD_setWidth, BitVec.getLsbD_reverse, BitVec.getLsbD_reverse,
        BitVec.getMsbD_eq_getLsbD, BitVec.getMsbD_eq_getLsbD, BitVec.getLsbD_setWidth]
    by_cases h : i < W
    · simp [h, hi, show N - W + i < N by omega, show N - 1 - (N - W + i) = W - 1 - i by omega,
          show W - 1 - i < W by omega]
    · simp [h, show ¬ N - W + i < N by omega]

theorem foldl_byteRef_false (p c : BitVec W) (data : List Byte) :
    data.foldl (byteRef false p) c = (data.flatMap byteBits).foldl (bitrefStep p) c := by
  induction data generalizing c with
  | nil => rfl
  | cons b bs ih => rw [List.foldl_cons, List.flatMap_cons, List.foldl_append, ih]; rfl

end Sys2Proof.Machine
end

