-- ==== Sys2Proof/Laws/Encoding.lean ====
section
/-!
SUPPORT. The header bits that the encoder writes, and the payload that the decoder asks for.
-/

namespace Sys2Proof

theorem StorageWidth.eight_le_bits (n : StorageWidth) : 8 ≤ n.bits := by cases n <;> decide

theorem StorageWidth.bits_le_max (n : StorageWidth) : n.bits ≤ maxWidth := by cases n <;> decide

theorem getLsbD_placeField {n : Nat} (lo : Nat) (v : BitVec n) (j : Nat) :
    (placeField lo v).getLsbD j = (decide (j < 32) && !decide (j < lo) && v.getLsbD (j - lo)) := by
  simp only [placeField, BitVec.getLsbD_shiftLeft, BitVec.getLsbD_setWidth]
  by_cases h : j < 32
  · simp [show j - lo < 32 by omega]
  · simp [h]

theorem headerField_eq {lo n : Nat} {h : Header} {v : BitVec n} (H : ∀ j < n, h.getLsbD (lo + j) = v.getLsbD j) :
    headerField lo n h = v := by
  ext j hj
  simp [headerField, BitVec.getElem_extractLsb', H j hj, BitVec.getLsbD_eq_getElem hj]

/-- The opcode of each command (spec/30_encoding.md R91). -/
def opOf : Instr → BitVec 4
  | .config _ _ _ _ _ => opConfig
  | .init _ => opInit
  | .update _ _ => opUpdate
  | .updateBits _ _ _ => opUpdateBits
  | .finish _ => opFinish
  | .tableRead _ => opTableRead

theorem headerOp_encode (i : Instr) : headerOp (encode i).header = opOf i := by
  apply headerField_eq
  intro j hj
  cases i <;> simp only [encode, opOf] <;> interval_cases j <;>
    (simp only [BitVec.getLsbD_or, getLsbD_placeField]; simp)

theorem headerLen_encode_update (ch : BitVec 4) (data : List Byte) :
    headerLen (encode (.update ch data)).header = BitVec.ofNat 24 data.length := by
  apply headerField_eq
  intro j hj
  simp only [encode, BitVec.getLsbD_or, getLsbD_placeField]
  rw [BitVec.getLsbD_of_ge opUpdate _ (by omega), BitVec.getLsbD_of_ge ch _ (by omega)]
  simp [hj]; omega

/-- The header of an encoded command asks for as many operand beats as the command has. -/
theorem payloadOperands_encode (i : Instr) : payloadOperands (encode i).header = (encode i).operands.length := by
  rw [payloadOperands, headerOp_encode]
  cases i <;> simp [opOf, encode, opConfig, opInit, opUpdate, opUpdateBits, opFinish, opTableRead]

/-- The header of an encoded well-formed command asks for as many bytes as the command has. -/
theorem payloadBytes_encode {n : StorageWidth} {i : Instr} (hi : i.WellFormed n = true) :
    payloadBytes (encode i).header = (encode i).bytes.length := by
  rw [payloadBytes, headerOp_encode]
  cases i with
  | update ch data =>
    have hlen : data.length < 2 ^ 24 := of_decide_eq_true hi
    rw [headerLen_encode_update, opOf, if_pos rfl, BitVec.toNat_ofNat, Nat.mod_eq_of_lt hlen]
    rfl
  | config w r p q x => rfl
  | init ch => rfl
  | updateBits ch b k => rfl
  | finish ch => rfl
  | tableRead idx => rfl

/-- A value that fits the lane comes back from it. -/
theorem setWidth_laneValue {n : StorageWidth} {v : BitVec maxWidth} (h : fitsLane n v = true) :
    (Machine.laneValue n.bits v).setWidth maxWidth = v := by
  have h := of_decide_eq_true h
  apply BitVec.eq_of_toNat_eq
  simp only [Machine.laneValue, BitVec.toNat_setWidth]
  rw [Nat.mod_eq_of_lt h, Nat.mod_eq_of_lt v.isLt]

/-! ### The decoder and the payload -/

theorem unlessReserved_ne_incomplete (m h : Header) (i : Instr) : unlessReserved m h i ≠ .incomplete := by
  unfold unlessReserved; split <;> simp

/-- The decoder waits for the payload, and for nothing else (spec/30_encoding.md R101, R102). -/
theorem decode_incomplete_iff (h : Header) (ops : List (BitVec maxWidth)) (bs : List Byte) :
    decode h ops bs = .incomplete ↔ ops.length < payloadOperands h ∨ bs.length < payloadBytes h := by
  have d1 : opUpdate ≠ opConfig := by decide
  have d2 : opUpdate ≠ opInit := by decide
  unfold decode
  by_cases h1 : headerOp h = opConfig
  · have hb : payloadBytes h = 0 := by simp [payloadBytes, h1, d1.symm]
    rw [if_pos h1, hb, payloadOperands, if_pos h1]
    match ops with
    | [] => simp
    | [_] => simp
    | [_, _] => simp
    | _ :: _ :: _ :: _ => simp [unlessReserved_ne_incomplete]
  · have ho : payloadOperands h = 0 := by simp [payloadOperands, h1]
    rw [if_neg h1, ho]
    by_cases h3 : headerOp h = opUpdate
    · rw [if_neg (by rw [h3]; exact d2), if_pos h3]
      simp
    · have hb : payloadBytes h = 0 := by simp [payloadBytes, h3]
      rw [if_neg h3, hb]
      simp only [Nat.not_lt_zero, or_self, iff_false]
      repeat' split
      all_goals simp [unlessReserved_ne_incomplete]

end Sys2Proof
end

