-- ==== Sys2Proof/Laws/State.lean ====
section
/-!
SUPPORT. What each update of the engine does to each field, so that no proof unfolds a record update.
-/

namespace Sys2Proof.Machine

variable {N : Nat} (e : Engine N)

/-! ### `Engine.respond` -/

@[simp] theorem Engine.respond_desc (code : BitVec 4) (v : BitVec N) : (e.respond code v).desc = e.desc := rfl
@[simp] theorem Engine.respond_channels (code : BitVec 4) (v : BitVec N) : (e.respond code v).channels = e.channels := rfl
@[simp] theorem Engine.respond_cfgValid (code : BitVec 4) (v : BitVec N) : (e.respond code v).cfgValid = e.cfgValid := rfl
@[simp] theorem Engine.respond_err (code : BitVec 4) (v : BitVec N) : (e.respond code v).err = e.err := rfl
@[simp] theorem Engine.respond_cause (code : BitVec 4) (v : BitVec N) : (e.respond code v).cause = e.cause := rfl
@[simp] theorem Engine.respond_responses (code : BitVec 4) (v : BitVec N) : (e.respond code v).responses = e.responses ++ [⟨code, v⟩] := rfl
@[simp] theorem Engine.respond_refused (code : BitVec 4) (v : BitVec N) : (e.respond code v).refused = e.refused := rfl
@[simp] theorem Engine.respond_flight (code : BitVec 4) (v : BitVec N) : (e.respond code v).flight = e.flight := rfl
@[simp] theorem Engine.respond_resetLine (code : BitVec 4) (v : BitVec N) : (e.respond code v).resetLine = e.resetLine := rfl
@[simp] theorem Engine.respond_commandLane (code : BitVec 4) (v : BitVec N) : (e.respond code v).commandLane = e.commandLane := rfl
@[simp] theorem Engine.respond_operandLane (code : BitVec 4) (v : BitVec N) : (e.respond code v).operandLane = e.operandLane := rfl
@[simp] theorem Engine.respond_byteLane (code : BitVec 4) (v : BitVec N) : (e.respond code v).byteLane = e.byteLane := rfl
@[simp] theorem Engine.respond_draws (code : BitVec 4) (v : BitVec N) : (e.respond code v).draws = e.draws := rfl

/-! ### `Engine.respondOk` -/

@[simp] theorem Engine.respondOk_desc (v : BitVec N) : (e.respondOk v).desc = e.desc := rfl
@[simp] theorem Engine.respondOk_channels (v : BitVec N) : (e.respondOk v).channels = e.channels := rfl
@[simp] theorem Engine.respondOk_cfgValid (v : BitVec N) : (e.respondOk v).cfgValid = e.cfgValid := rfl
@[simp] theorem Engine.respondOk_err (v : BitVec N) : (e.respondOk v).err = e.err := rfl
@[simp] theorem Engine.respondOk_cause (v : BitVec N) : (e.respondOk v).cause = e.cause := rfl
@[simp] theorem Engine.respondOk_responses (v : BitVec N) : (e.respondOk v).responses = e.responses ++ [⟨codeOk, v⟩] := rfl
@[simp] theorem Engine.respondOk_refused (v : BitVec N) : (e.respondOk v).refused = e.refused := rfl
@[simp] theorem Engine.respondOk_flight (v : BitVec N) : (e.respondOk v).flight = e.flight := rfl
@[simp] theorem Engine.respondOk_resetLine (v : BitVec N) : (e.respondOk v).resetLine = e.resetLine := rfl
@[simp] theorem Engine.respondOk_commandLane (v : BitVec N) : (e.respondOk v).commandLane = e.commandLane := rfl
@[simp] theorem Engine.respondOk_operandLane (v : BitVec N) : (e.respondOk v).operandLane = e.operandLane := rfl
@[simp] theorem Engine.respondOk_byteLane (v : BitVec N) : (e.respondOk v).byteLane = e.byteLane := rfl
@[simp] theorem Engine.respondOk_draws (v : BitVec N) : (e.respondOk v).draws = e.draws := rfl

/-! ### `Engine.recordError` -/

@[simp] theorem Engine.recordError_desc (c : Cause) : (e.recordError c).desc = e.desc := rfl
@[simp] theorem Engine.recordError_channels (c : Cause) : (e.recordError c).channels = e.channels := rfl
@[simp] theorem Engine.recordError_cfgValid (c : Cause) : (e.recordError c).cfgValid = e.cfgValid := rfl
@[simp] theorem Engine.recordError_err (c : Cause) : (e.recordError c).err = true := rfl
@[simp] theorem Engine.recordError_cause (c : Cause) : (e.recordError c).cause = if e.err then e.cause else causeCode c := rfl
@[simp] theorem Engine.recordError_responses (c : Cause) : (e.recordError c).responses = e.responses := rfl
@[simp] theorem Engine.recordError_refused (c : Cause) : (e.recordError c).refused = e.refused := rfl
@[simp] theorem Engine.recordError_flight (c : Cause) : (e.recordError c).flight = e.flight := rfl
@[simp] theorem Engine.recordError_resetLine (c : Cause) : (e.recordError c).resetLine = e.resetLine := rfl
@[simp] theorem Engine.recordError_commandLane (c : Cause) : (e.recordError c).commandLane = e.commandLane := rfl
@[simp] theorem Engine.recordError_operandLane (c : Cause) : (e.recordError c).operandLane = e.operandLane := rfl
@[simp] theorem Engine.recordError_byteLane (c : Cause) : (e.recordError c).byteLane = e.byteLane := rfl
@[simp] theorem Engine.recordError_draws (c : Cause) : (e.recordError c).draws = e.draws := rfl

/-! ### `Engine.raise` -/

@[simp] theorem Engine.raise_desc (c : Cause) : (e.raise c).desc = e.desc := rfl
@[simp] theorem Engine.raise_channels (c : Cause) : (e.raise c).channels = e.channels := rfl
@[simp] theorem Engine.raise_cfgValid (c : Cause) : (e.raise c).cfgValid = e.cfgValid := rfl
@[simp] theorem Engine.raise_err (c : Cause) : (e.raise c).err = true := rfl
@[simp] theorem Engine.raise_cause (c : Cause) : (e.raise c).cause = if e.err then e.cause else causeCode c := rfl
@[simp] theorem Engine.raise_responses (c : Cause) : (e.raise c).responses = e.responses ++ [⟨causeCode c, 0⟩] := rfl
@[simp] theorem Engine.raise_refused (c : Cause) : (e.raise c).refused = e.refused := rfl
@[simp] theorem Engine.raise_flight (c : Cause) : (e.raise c).flight = e.flight := rfl
@[simp] theorem Engine.raise_resetLine (c : Cause) : (e.raise c).resetLine = e.resetLine := rfl
@[simp] theorem Engine.raise_commandLane (c : Cause) : (e.raise c).commandLane = e.commandLane := rfl
@[simp] theorem Engine.raise_operandLane (c : Cause) : (e.raise c).operandLane = e.operandLane := rfl
@[simp] theorem Engine.raise_byteLane (c : Cause) : (e.raise c).byteLane = e.byteLane := rfl
@[simp] theorem Engine.raise_draws (c : Cause) : (e.raise c).draws = e.draws := rfl

/-! ### `Engine.setChannel` -/

@[simp] theorem Engine.setChannel_desc (ch : BitVec 4) (c : Channel N) : (e.setChannel ch c).desc = e.desc := rfl
@[simp] theorem Engine.setChannel_channels (ch : BitVec 4) (c : Channel N) : (e.setChannel ch c).channels = e.channels.set ch.toNat c := rfl
@[simp] theorem Engine.setChannel_cfgValid (ch : BitVec 4) (c : Channel N) : (e.setChannel ch c).cfgValid = e.cfgValid := rfl
@[simp] theorem Engine.setChannel_err (ch : BitVec 4) (c : Channel N) : (e.setChannel ch c).err = e.err := rfl
@[simp] theorem Engine.setChannel_cause (ch : BitVec 4) (c : Channel N) : (e.setChannel ch c).cause = e.cause := rfl
@[simp] theorem Engine.setChannel_responses (ch : BitVec 4) (c : Channel N) : (e.setChannel ch c).responses = e.responses := rfl
@[simp] theorem Engine.setChannel_refused (ch : BitVec 4) (c : Channel N) : (e.setChannel ch c).refused = e.refused := rfl
@[simp] theorem Engine.setChannel_flight (ch : BitVec 4) (c : Channel N) : (e.setChannel ch c).flight = e.flight := rfl
@[simp] theorem Engine.setChannel_resetLine (ch : BitVec 4) (c : Channel N) : (e.setChannel ch c).resetLine = e.resetLine := rfl
@[simp] theorem Engine.setChannel_commandLane (ch : BitVec 4) (c : Channel N) : (e.setChannel ch c).commandLane = e.commandLane := rfl
@[simp] theorem Engine.setChannel_operandLane (ch : BitVec 4) (c : Channel N) : (e.setChannel ch c).operandLane = e.operandLane := rfl
@[simp] theorem Engine.setChannel_byteLane (ch : BitVec 4) (c : Channel N) : (e.setChannel ch c).byteLane = e.byteLane := rfl
@[simp] theorem Engine.setChannel_draws (ch : BitVec 4) (c : Channel N) : (e.setChannel ch c).draws = e.draws := rfl

/-! ### `Engine.configure` -/

@[simp] theorem Engine.configure_desc (d : Descriptor N) : (e.configure d).desc = d := rfl
@[simp] theorem Engine.configure_channels (d : Descriptor N) : (e.configure d).channels = e.channels.map fun _ => d.freshChannel := rfl
@[simp] theorem Engine.configure_cfgValid (d : Descriptor N) : (e.configure d).cfgValid = true := rfl
@[simp] theorem Engine.configure_err (d : Descriptor N) : (e.configure d).err = e.err := rfl
@[simp] theorem Engine.configure_cause (d : Descriptor N) : (e.configure d).cause = e.cause := rfl
@[simp] theorem Engine.configure_responses (d : Descriptor N) : (e.configure d).responses = e.responses := rfl
@[simp] theorem Engine.configure_refused (d : Descriptor N) : (e.configure d).refused = e.refused := rfl
@[simp] theorem Engine.configure_flight (d : Descriptor N) : (e.configure d).flight = e.flight := rfl
@[simp] theorem Engine.configure_resetLine (d : Descriptor N) : (e.configure d).resetLine = e.resetLine := rfl
@[simp] theorem Engine.configure_commandLane (d : Descriptor N) : (e.configure d).commandLane = e.commandLane := rfl
@[simp] theorem Engine.configure_operandLane (d : Descriptor N) : (e.configure d).operandLane = e.operandLane := rfl
@[simp] theorem Engine.configure_byteLane (d : Descriptor N) : (e.configure d).byteLane = e.byteLane := rfl
@[simp] theorem Engine.configure_draws (d : Descriptor N) : (e.configure d).draws = e.draws := rfl

/-! ### `Engine.refuseInvalidWidth` -/

@[simp] theorem Engine.refuseInvalidWidth_desc : e.refuseInvalidWidth.desc = Descriptor.unspecified N e.draws := rfl
@[simp] theorem Engine.refuseInvalidWidth_channels : e.refuseInvalidWidth.channels = unspecifiedChannels N e.draws e.nacc := rfl
@[simp] theorem Engine.refuseInvalidWidth_cfgValid : e.refuseInvalidWidth.cfgValid = true := rfl
@[simp] theorem Engine.refuseInvalidWidth_err : e.refuseInvalidWidth.err = e.err := rfl
@[simp] theorem Engine.refuseInvalidWidth_cause : e.refuseInvalidWidth.cause = e.cause := rfl
@[simp] theorem Engine.refuseInvalidWidth_responses : e.refuseInvalidWidth.responses = e.responses ++ [⟨codeOk, Config.freeRspValue N e.draws⟩] := rfl
@[simp] theorem Engine.refuseInvalidWidth_refused : e.refuseInvalidWidth.refused = true := rfl
@[simp] theorem Engine.refuseInvalidWidth_flight : e.refuseInvalidWidth.flight = e.flight := rfl
@[simp] theorem Engine.refuseInvalidWidth_resetLine : e.refuseInvalidWidth.resetLine = e.resetLine := rfl
@[simp] theorem Engine.refuseInvalidWidth_commandLane : e.refuseInvalidWidth.commandLane = e.commandLane := rfl
@[simp] theorem Engine.refuseInvalidWidth_operandLane : e.refuseInvalidWidth.operandLane = e.operandLane := rfl
@[simp] theorem Engine.refuseInvalidWidth_byteLane : e.refuseInvalidWidth.byteLane = e.byteLane := rfl
@[simp] theorem Engine.refuseInvalidWidth_draws : e.refuseInvalidWidth.draws = e.draws + 1 := rfl

/-! ### `Engine.noMeaning` -/

@[simp] theorem Engine.noMeaning_desc : e.noMeaning.desc = Descriptor.unspecified N e.draws := rfl
@[simp] theorem Engine.noMeaning_channels : e.noMeaning.channels = unspecifiedChannels N e.draws e.nacc := rfl
@[simp] theorem Engine.noMeaning_cfgValid : e.noMeaning.cfgValid = Config.freeCfgValid N e.draws := rfl
@[simp] theorem Engine.noMeaning_err : e.noMeaning.err = Config.freeErr N e.draws := rfl
@[simp] theorem Engine.noMeaning_cause : e.noMeaning.cause = Config.freeCause N e.draws := rfl
@[simp] theorem Engine.noMeaning_responses : e.noMeaning.responses = e.responses ++ [⟨Config.freeRspCode N e.draws, Config.freeRspValue N e.draws⟩] := rfl
@[simp] theorem Engine.noMeaning_refused : e.noMeaning.refused = e.refused := rfl
@[simp] theorem Engine.noMeaning_flight : e.noMeaning.flight = e.flight := rfl
@[simp] theorem Engine.noMeaning_resetLine : e.noMeaning.resetLine = e.resetLine := rfl
@[simp] theorem Engine.noMeaning_commandLane : e.noMeaning.commandLane = e.commandLane := rfl
@[simp] theorem Engine.noMeaning_operandLane : e.noMeaning.operandLane = e.operandLane := rfl
@[simp] theorem Engine.noMeaning_byteLane : e.noMeaning.byteLane = e.byteLane := rfl
@[simp] theorem Engine.noMeaning_draws : e.noMeaning.draws = e.draws + 1 := rfl

/-! ### `Engine.resetNow` -/

@[simp] theorem Engine.resetNow_desc : e.resetNow.desc = Descriptor.unspecified N e.draws := rfl
@[simp] theorem Engine.resetNow_channels : e.resetNow.channels = unspecifiedChannels N e.draws e.nacc := rfl
@[simp] theorem Engine.resetNow_cfgValid : e.resetNow.cfgValid = false := rfl
@[simp] theorem Engine.resetNow_err : e.resetNow.err = false := rfl
@[simp] theorem Engine.resetNow_cause : e.resetNow.cause = 0 := rfl
@[simp] theorem Engine.resetNow_responses : e.resetNow.responses = [] := rfl
@[simp] theorem Engine.resetNow_refused : e.resetNow.refused = e.refused := rfl
@[simp] theorem Engine.resetNow_flight : e.resetNow.flight = none := rfl
@[simp] theorem Engine.resetNow_resetLine : e.resetNow.resetLine = false := rfl
@[simp] theorem Engine.resetNow_commandLane : e.resetNow.commandLane = e.commandLane := rfl
@[simp] theorem Engine.resetNow_operandLane : e.resetNow.operandLane = e.operandLane := rfl
@[simp] theorem Engine.resetNow_byteLane : e.resetNow.byteLane = e.byteLane := rfl
@[simp] theorem Engine.resetNow_draws : e.resetNow.draws = e.draws + 1 := rfl

/-! ### `Engine.drained` -/

@[simp] theorem Engine.drained_desc (f : Flight N) : (e.drained f).desc = e.desc := rfl
@[simp] theorem Engine.drained_channels (f : Flight N) : (e.drained f).channels = e.channels := rfl
@[simp] theorem Engine.drained_cfgValid (f : Flight N) : (e.drained f).cfgValid = e.cfgValid := rfl
@[simp] theorem Engine.drained_err (f : Flight N) : (e.drained f).err = e.err := rfl
@[simp] theorem Engine.drained_cause (f : Flight N) : (e.drained f).cause = e.cause := rfl
@[simp] theorem Engine.drained_responses (f : Flight N) : (e.drained f).responses = e.responses := rfl
@[simp] theorem Engine.drained_refused (f : Flight N) : (e.drained f).refused = e.refused := rfl
@[simp] theorem Engine.drained_flight (f : Flight N) : (e.drained f).flight = none := rfl
@[simp] theorem Engine.drained_resetLine (f : Flight N) : (e.drained f).resetLine = e.resetLine := rfl
@[simp] theorem Engine.drained_commandLane (f : Flight N) : (e.drained f).commandLane = e.commandLane := rfl
@[simp] theorem Engine.drained_operandLane (f : Flight N) : (e.drained f).operandLane = e.operandLane.drop f.lacksOperands := rfl
@[simp] theorem Engine.drained_byteLane (f : Flight N) : (e.drained f).byteLane = e.byteLane.drop f.lacksBytes := rfl
@[simp] theorem Engine.drained_draws (f : Flight N) : (e.drained f).draws = e.draws := rfl

/-! ### `Engine.present` -/

@[simp] theorem Engine.present_desc (h : Header) (ops : List (BitVec N)) (bs : List Byte) : (e.present h ops bs).desc = e.desc := rfl
@[simp] theorem Engine.present_channels (h : Header) (ops : List (BitVec N)) (bs : List Byte) : (e.present h ops bs).channels = e.channels := rfl
@[simp] theorem Engine.present_cfgValid (h : Header) (ops : List (BitVec N)) (bs : List Byte) : (e.present h ops bs).cfgValid = e.cfgValid := rfl
@[simp] theorem Engine.present_err (h : Header) (ops : List (BitVec N)) (bs : List Byte) : (e.present h ops bs).err = e.err := rfl
@[simp] theorem Engine.present_cause (h : Header) (ops : List (BitVec N)) (bs : List Byte) : (e.present h ops bs).cause = e.cause := rfl
@[simp] theorem Engine.present_responses (h : Header) (ops : List (BitVec N)) (bs : List Byte) : (e.present h ops bs).responses = e.responses := rfl
@[simp] theorem Engine.present_refused (h : Header) (ops : List (BitVec N)) (bs : List Byte) : (e.present h ops bs).refused = e.refused := rfl
@[simp] theorem Engine.present_flight (h : Header) (ops : List (BitVec N)) (bs : List Byte) : (e.present h ops bs).flight = none := rfl
@[simp] theorem Engine.present_resetLine (h : Header) (ops : List (BitVec N)) (bs : List Byte) : (e.present h ops bs).resetLine = false := rfl
@[simp] theorem Engine.present_commandLane (h : Header) (ops : List (BitVec N)) (bs : List Byte) : (e.present h ops bs).commandLane = h :: e.commandLane := rfl
@[simp] theorem Engine.present_operandLane (h : Header) (ops : List (BitVec N)) (bs : List Byte) : (e.present h ops bs).operandLane = ops ++ e.operandLane := rfl
@[simp] theorem Engine.present_byteLane (h : Header) (ops : List (BitVec N)) (bs : List Byte) : (e.present h ops bs).byteLane = bs ++ e.byteLane := rfl
@[simp] theorem Engine.present_draws (h : Header) (ops : List (BitVec N)) (bs : List Byte) : (e.present h ops bs).draws = e.draws := rfl

/-! ### `Engine.hostSend` -/

@[simp] theorem Engine.hostSend_desc (h : Header) (ops : List (BitVec N)) (bs : List Byte) : (e.hostSend h ops bs).desc = e.desc := rfl
@[simp] theorem Engine.hostSend_channels (h : Header) (ops : List (BitVec N)) (bs : List Byte) : (e.hostSend h ops bs).channels = e.channels := rfl
@[simp] theorem Engine.hostSend_cfgValid (h : Header) (ops : List (BitVec N)) (bs : List Byte) : (e.hostSend h ops bs).cfgValid = e.cfgValid := rfl
@[simp] theorem Engine.hostSend_err (h : Header) (ops : List (BitVec N)) (bs : List Byte) : (e.hostSend h ops bs).err = e.err := rfl
@[simp] theorem Engine.hostSend_cause (h : Header) (ops : List (BitVec N)) (bs : List Byte) : (e.hostSend h ops bs).cause = e.cause := rfl
@[simp] theorem Engine.hostSend_responses (h : Header) (ops : List (BitVec N)) (bs : List Byte) : (e.hostSend h ops bs).responses = e.responses := rfl
@[simp] theorem Engine.hostSend_refused (h : Header) (ops : List (BitVec N)) (bs : List Byte) : (e.hostSend h ops bs).refused = e.refused := rfl
@[simp] theorem Engine.hostSend_flight (h : Header) (ops : List (BitVec N)) (bs : List Byte) : (e.hostSend h ops bs).flight = e.flight := rfl
@[simp] theorem Engine.hostSend_resetLine (h : Header) (ops : List (BitVec N)) (bs : List Byte) : (e.hostSend h ops bs).resetLine = e.resetLine := rfl
@[simp] theorem Engine.hostSend_commandLane (h : Header) (ops : List (BitVec N)) (bs : List Byte) : (e.hostSend h ops bs).commandLane = e.commandLane ++ [h] := rfl
@[simp] theorem Engine.hostSend_operandLane (h : Header) (ops : List (BitVec N)) (bs : List Byte) : (e.hostSend h ops bs).operandLane = e.operandLane ++ ops := rfl
@[simp] theorem Engine.hostSend_byteLane (h : Header) (ops : List (BitVec N)) (bs : List Byte) : (e.hostSend h ops bs).byteLane = e.byteLane ++ bs := rfl
@[simp] theorem Engine.hostSend_draws (h : Header) (ops : List (BitVec N)) (bs : List Byte) : (e.hostSend h ops bs).draws = e.draws := rfl

/-! ### `Engine.hostReset` -/

@[simp] theorem Engine.hostReset_desc : e.hostReset.desc = e.desc := rfl
@[simp] theorem Engine.hostReset_channels : e.hostReset.channels = e.channels := rfl
@[simp] theorem Engine.hostReset_cfgValid : e.hostReset.cfgValid = e.cfgValid := rfl
@[simp] theorem Engine.hostReset_err : e.hostReset.err = e.err := rfl
@[simp] theorem Engine.hostReset_cause : e.hostReset.cause = e.cause := rfl
@[simp] theorem Engine.hostReset_responses : e.hostReset.responses = e.responses := rfl
@[simp] theorem Engine.hostReset_refused : e.hostReset.refused = e.refused := rfl
@[simp] theorem Engine.hostReset_flight : e.hostReset.flight = e.flight := rfl
@[simp] theorem Engine.hostReset_resetLine : e.hostReset.resetLine = true := rfl
@[simp] theorem Engine.hostReset_commandLane : e.hostReset.commandLane = e.commandLane := rfl
@[simp] theorem Engine.hostReset_operandLane : e.hostReset.operandLane = e.operandLane := rfl
@[simp] theorem Engine.hostReset_byteLane : e.hostReset.byteLane = e.byteLane := rfl
@[simp] theorem Engine.hostReset_draws : e.hostReset.draws = e.draws := rfl

/-! ### The machine -/

@[simp] theorem State.mapEngine_width (s : State) (f : Engine s.width.bits → Engine s.width.bits) :
    (s.mapEngine f).width = s.width := rfl
@[simp] theorem State.mapEngine_engine (s : State) (f : Engine s.width.bits → Engine s.width.bits) :
    (s.mapEngine f).engine = f s.engine := rfl
@[simp] theorem State.resetOf_width (n : StorageWidth) (nacc : Nat) : (State.resetOf n nacc).width = n := rfl

end Sys2Proof.Machine
end

