-- ==== Sys2Proof/Laws/Ops.lean ====
section
/-!
SUPPORT. What the shared operations on the engine do, said once: channels, the checks that read the state, and the
number of channels.
-/

namespace Sys2Proof.Machine

variable {N : Nat} {e : Engine N} {ch : BitVec 4} {c : Channel N} {k : Channel N → Engine N}

/-! ### The number of channels -/

theorem length_unspecifiedChannels (N d count : Nat) : (unspecifiedChannels N d count).length = count := by
  simp [unspecifiedChannels]

@[simp] theorem Engine.respond_nacc (e : Engine N) (code : BitVec 4) (v : BitVec N) :
    (e.respond code v).nacc = e.nacc := rfl
@[simp] theorem Engine.respondOk_nacc (e : Engine N) (v : BitVec N) : (e.respondOk v).nacc = e.nacc := rfl
@[simp] theorem Engine.raise_nacc (e : Engine N) (c : Cause) : (e.raise c).nacc = e.nacc := rfl
@[simp] theorem Engine.setChannel_nacc (e : Engine N) (ch : BitVec 4) (c : Channel N) :
    (e.setChannel ch c).nacc = e.nacc := List.length_set
@[simp] theorem Engine.configure_nacc (e : Engine N) (d : Descriptor N) : (e.configure d).nacc = e.nacc :=
  List.length_map _
@[simp] theorem Engine.refuseInvalidWidth_nacc (e : Engine N) : e.refuseInvalidWidth.nacc = e.nacc :=
  length_unspecifiedChannels ..
@[simp] theorem Engine.noMeaning_nacc (e : Engine N) : e.noMeaning.nacc = e.nacc := length_unspecifiedChannels ..
@[simp] theorem Engine.resetNow_nacc (e : Engine N) : e.resetNow.nacc = e.nacc := length_unspecifiedChannels ..

/-! ### Channels -/

theorem Engine.channel?_eq_none_iff : e.channel? ch = none ↔ e.nacc ≤ ch.toNat := List.getElem?_eq_none_iff

theorem Engine.lt_nacc_of_channel? (h : e.channel? ch = some c) : ch.toNat < e.nacc :=
  (List.getElem?_eq_some_iff.mp h).1

theorem Engine.channel?_isSome_of_lt (h : ch.toNat < e.nacc) : ∃ c, e.channel? ch = some c :=
  ⟨_, List.getElem?_eq_getElem h⟩

theorem Engine.mem_channels_of_channel? (h : e.channel? ch = some c) : c ∈ e.channels :=
  List.mem_of_getElem? h

theorem Engine.channel?_setChannel_self (h : ch.toNat < e.nacc) (c' : Channel N) :
    (e.setChannel ch c').channel? ch = some c' := List.getElem?_set_self h

theorem Engine.channel?_setChannel_ne {b : BitVec 4} (h : b ≠ ch) (c' : Channel N) :
    (e.setChannel ch c').channel? b = e.channel? b :=
  List.getElem?_set_ne fun hn => h (BitVec.eq_of_toNat_eq hn.symm)

/-- Writing back what a channel holds changes nothing. -/
theorem Engine.setChannel_channel? (h : e.channel? ch = some c) : e.setChannel ch c = e := by
  have : e.channels.set ch.toNat c = e.channels := by
    obtain ⟨_, rfl⟩ := List.getElem?_eq_some_iff.mp h
    exact List.set_getElem_self ..
  simp [Engine.setChannel, this]

/-! ### The checks -/

theorem Engine.perform_of_not_refused {f : Engine N → Engine N} (h : e.refused = false) : e.perform f = f e := by
  simp [Engine.perform, h]

theorem Engine.perform_of_refused {f : Engine N → Engine N} (h : e.refused = true) : e.perform f = e.noMeaning := by
  simp [Engine.perform, h]

theorem Engine.whenConfigured_of_valid {e' : Engine N} (h : e.cfgValid = true) : e.whenConfigured e' = e' := by
  simp [Engine.whenConfigured, h]

theorem Engine.whenConfigured_of_not_valid {e' : Engine N} (h : e.cfgValid = false) :
    e.whenConfigured e' = e.raise .notConfigured := by
  simp [Engine.whenConfigured, h]

theorem Engine.withChannel_of_some (h : e.channel? ch = some c) (hv : e.cfgValid = true) :
    e.withChannel ch k = k c := by
  simp [Engine.withChannel, h, Engine.whenConfigured_of_valid hv]

theorem Engine.withChannel_of_le (h : e.nacc ≤ ch.toNat) : e.withChannel ch k = e.raise .badChannel := by
  simp [Engine.withChannel, Engine.channel?_eq_none_iff.mpr h]

theorem Engine.withChannel_of_not_valid (h : ch.toNat < e.nacc) (hv : e.cfgValid = false) :
    e.withChannel ch k = e.raise .notConfigured := by
  obtain ⟨c, hc⟩ := Engine.channel?_isSome_of_lt h
  simp [Engine.withChannel, hc, Engine.whenConfigured_of_not_valid hv]

/-- Everything `withChannel` can do. -/
theorem Engine.withChannel_cases (e : Engine N) (ch : BitVec 4) (k : Channel N → Engine N) :
    (e.nacc ≤ ch.toNat ∧ e.withChannel ch k = e.raise .badChannel) ∨
      (ch.toNat < e.nacc ∧ e.cfgValid = false ∧ e.withChannel ch k = e.raise .notConfigured) ∨
        ∃ c, e.channel? ch = some c ∧ e.cfgValid = true ∧ e.withChannel ch k = k c := by
  rcases Nat.lt_or_ge ch.toNat e.nacc with h | h
  · cases hv : e.cfgValid
    · exact .inr (.inl ⟨h, rfl, Engine.withChannel_of_not_valid h hv⟩)
    · obtain ⟨c, hc⟩ := Engine.channel?_isSome_of_lt h
      exact .inr (.inr ⟨c, hc, rfl, Engine.withChannel_of_some hc hv⟩)
  · exact .inl ⟨h, Engine.withChannel_of_le h⟩

end Sys2Proof.Machine
end

