-- ==== Sys2Proof/Laws/Exec.lean ====
section
/-!
SUPPORT. `exec` as a function of the engine: every command ends in a next state of the same storage width, and a
sequence of commands is a fold.
-/

namespace Sys2Proof.Machine

/-- The effect of a command on the engine while REFUSED is false. -/
def Engine.effect {N : Nat} (e : Engine N) : Instr → Engine N
  | .config w r poly ini xorout => e.config w.toNat r (laneValue N poly) (laneValue N ini) (laneValue N xorout)
  | .init ch => e.init ch
  | .update ch data => e.update ch data
  | .updateBits ch bits k => e.updateBits ch bits k
  | .finish ch => e.finish ch
  | .tableRead idx => e.tableRead idx

/-- The engine after a command. -/
def Engine.run1 {N : Nat} (e : Engine N) (i : Instr) : Engine N := e.perform fun e => e.effect i

/-- The engine after a sequence of commands. -/
def Engine.runs {N : Nat} (e : Engine N) (is : List Instr) : Engine N := is.foldl Engine.run1 e

theorem exec_eq (i : Instr) (n : StorageWidth) (e : Engine n.bits) : exec i ⟨n, e⟩ = .next ⟨n, e.run1 i⟩ := by
  cases i <;> rfl

theorem execAll_eq (is : List Instr) (n : StorageWidth) (e : Engine n.bits) :
    execAll is ⟨n, e⟩ = .next ⟨n, e.runs is⟩ := by
  induction is generalizing e with
  | nil => rfl
  | cons i is ih => simp only [execAll, exec_eq, ih]; rfl

theorem Engine.runs_nil {N : Nat} (e : Engine N) : e.runs [] = e := rfl

theorem Engine.runs_cons {N : Nat} (e : Engine N) (i : Instr) (is : List Instr) :
    e.runs (i :: is) = (e.run1 i).runs is := rfl

theorem Engine.run1_of_not_refused {N : Nat} {e : Engine N} (h : e.refused = false) (i : Instr) :
    e.run1 i = e.effect i := Engine.perform_of_not_refused h

theorem Engine.run1_of_refused {N : Nat} {e : Engine N} (h : e.refused = true) (i : Instr) :
    e.run1 i = e.noMeaning := Engine.perform_of_refused h

/-- Everything the effect of a command can do, the checks that read the engine's state included. -/
theorem Engine.effect_cases {N : Nat} (e : Engine N) (i : Instr) :
    (∃ c, e.effect i = e.raise c) ∨
      (∃ w r poly ini xorout, i = .config w r poly ini xorout ∧ (w.toNat = 0 ∨ N < w.toNat) ∧
        e.effect i = e.refuseInvalidWidth) ∨
      (∃ w r poly ini xorout, i = .config w r poly ini xorout ∧ w.toNat ≠ 0 ∧ w.toNat ≤ N ∧
        e.effect i = (e.configure (Descriptor.build w.toNat r (laneValue N poly) (laneValue N ini)
          (laneValue N xorout))).respondOk 0) ∨
      (e.cfgValid = true ∧ ∃ ch c, e.channel? ch = some c ∧
        ((i = .init ch ∧ e.effect i = (e.setChannel ch e.desc.freshChannel).respondOk 0) ∨
          (∃ data, i = .update ch data ∧ e.effect i = e.storeAndFinish ch (e.desc.feedBytes c data)) ∨
          (∃ bits k, i = .updateBits ch bits k ∧ e.desc.reflect = false ∧ k.toNat < 8 ∧
            e.effect i = e.storeAndFinish ch (e.desc.feedBits c bits k.toNat)) ∨
          (i = .finish ch ∧ e.effect i = e.respondOk (e.desc.fin c)))) ∨
      (e.cfgValid = true ∧ ∃ idx, i = .tableRead idx ∧ e.effect i = e.respondOk (e.desc.entry idx)) := by
  cases i with
  | config w r poly ini xorout =>
    by_cases h : w.toNat = 0 ∨ N < w.toNat
    · exact .inr (.inl ⟨w, r, poly, ini, xorout, rfl, h, by simp [Engine.effect, Engine.config, h]⟩)
    · refine .inr (.inr (.inl ⟨w, r, poly, ini, xorout, rfl, ?_, ?_, by simp only [Engine.effect, Engine.config, if_neg h]⟩)) <;>
        omega
  | init ch =>
    rcases e.withChannel_cases ch (fun _ => (e.setChannel ch e.desc.freshChannel).respondOk 0) with
      ⟨_, h⟩ | ⟨_, _, h⟩ | ⟨c, hc, hv, h⟩
    · exact .inl ⟨_, h⟩
    · exact .inl ⟨_, h⟩
    · exact .inr (.inr (.inr (.inl ⟨hv, ch, c, hc, .inl ⟨rfl, h⟩⟩)))
  | update ch data =>
    rcases e.withChannel_cases ch (fun c => e.storeAndFinish ch (e.desc.feedBytes c data)) with
      ⟨_, h⟩ | ⟨_, _, h⟩ | ⟨c, hc, hv, h⟩
    · exact .inl ⟨_, h⟩
    · exact .inl ⟨_, h⟩
    · exact .inr (.inr (.inr (.inl ⟨hv, ch, c, hc, .inr (.inl ⟨data, rfl, h⟩)⟩)))
  | updateBits ch bits k =>
    rcases e.withChannel_cases ch (fun c =>
        if e.desc.reflect then e.raise .precondReflect
        else if 8 ≤ k.toNat then e.raise .precondOffset
        else e.storeAndFinish ch (e.desc.feedBits c bits k.toNat)) with
      ⟨_, h⟩ | ⟨_, _, h⟩ | ⟨c, hc, hv, h⟩
    · exact .inl ⟨_, h⟩
    · exact .inl ⟨_, h⟩
    · cases hr : e.desc.reflect with
      | true => exact .inl ⟨.precondReflect, h.trans (by simp [hr])⟩
      | false =>
        by_cases hk : 8 ≤ k.toNat
        · exact .inl ⟨.precondOffset, h.trans (by simp [hr, hk])⟩
        · exact .inr (.inr (.inr (.inl ⟨hv, ch, c, hc,
            .inr (.inr (.inl ⟨bits, k, rfl, rfl, by omega, h.trans (by simp [hr, hk])⟩))⟩)))
  | finish ch =>
    rcases e.withChannel_cases ch (fun c => e.respondOk (e.desc.fin c)) with ⟨_, h⟩ | ⟨_, _, h⟩ | ⟨c, hc, hv, h⟩
    · exact .inl ⟨_, h⟩
    · exact .inl ⟨_, h⟩
    · exact .inr (.inr (.inr (.inl ⟨hv, ch, c, hc, .inr (.inr (.inr ⟨rfl, h⟩))⟩)))
  | tableRead idx =>
    cases hv : e.cfgValid with
    | false => exact .inl ⟨_, Engine.whenConfigured_of_not_valid hv⟩
    | true => exact .inr (.inr (.inr (.inr ⟨rfl, idx, rfl, Engine.whenConfigured_of_valid hv⟩)))

/-! ### What each command does where the spec gives it its effect -/

section

variable {N : Nat} {e : Engine N} {ch : BitVec 4} {c : Channel N}

theorem Engine.runs_append (e : Engine N) (is js : List Instr) : e.runs (is ++ js) = (e.runs is).runs js :=
  List.foldl_append

theorem run1_config (hr : e.refused = false) {w : BitVec 8} (h1 : 1 ≤ w.toNat) (h2 : w.toNat ≤ N) (r : Bool)
    (poly ini xorout : BitVec maxWidth) :
    e.run1 (.config w r poly ini xorout) =
      (e.configure (Descriptor.build w.toNat r (laneValue N poly) (laneValue N ini) (laneValue N xorout))).respondOk 0 := by
  rw [Engine.run1_of_not_refused hr]
  simp only [Engine.effect, Engine.config, if_neg (show ¬ (w.toNat = 0 ∨ N < w.toNat) by omega)]

theorem run1_init (h : e.Ready) (hc : e.channel? ch = some c) :
    e.run1 (.init ch) = (e.setChannel ch e.desc.freshChannel).respondOk 0 := by
  rw [Engine.run1_of_not_refused h.1]; exact Engine.withChannel_of_some hc h.2

theorem run1_update (h : e.Ready) (hc : e.channel? ch = some c) (data : List Byte) :
    e.run1 (.update ch data) = e.storeAndFinish ch (e.desc.feedBytes c data) := by
  rw [Engine.run1_of_not_refused h.1]; exact Engine.withChannel_of_some hc h.2

theorem run1_updateBits (h : e.Ready) (hc : e.channel? ch = some c) (hrf : e.desc.reflect = false) (bits : Byte)
    {k : BitVec 4} (hk : k.toNat < 8) :
    e.run1 (.updateBits ch bits k) = e.storeAndFinish ch (e.desc.feedBits c bits k.toNat) := by
  rw [Engine.run1_of_not_refused h.1]
  refine (Engine.withChannel_of_some hc h.2).trans ?_
  rw [hrf, if_neg (by simp), if_neg (by omega)]

theorem run1_finish (h : e.Ready) (hc : e.channel? ch = some c) :
    e.run1 (.finish ch) = e.respondOk (e.desc.fin c) := by
  rw [Engine.run1_of_not_refused h.1]; exact Engine.withChannel_of_some hc h.2

theorem run1_tableRead (h : e.Ready) (idx : Byte) : e.run1 (.tableRead idx) = e.respondOk (e.desc.entry idx) := by
  rw [Engine.run1_of_not_refused h.1]; exact Engine.whenConfigured_of_valid h.2

end

end Sys2Proof.Machine
end

