-- ==== Sys2Proof/Laws/PerInstr.lean ====
section
/-!
SUPPORT. A family of statements about each command as syntax: its encoded header lies in its row of
spec/opcode_table.json.
-/

namespace Sys2Proof.Laws.TableRow

/-- The columns "mask" of spec/opcode_table.json: the row's fixed bits. -/
def mask : Instr → Header
  | .config _ _ _ _ _ => 0xFFFE00FF
  | .init _ => 0xFFFFFF0F
  | .update _ _ => 0x0000000F
  | .updateBits _ _ _ => 0xFFF0000F
  | .finish _ => 0xFFFFFF0F
  | .tableRead _ => 0xFFFF00FF

/-- The columns "match" of spec/opcode_table.json. -/
def pattern : Instr → Header
  | .config _ _ _ _ _ => 0x00000001
  | .init _ => 0x00000002
  | .update _ _ => 0x00000003
  | .updateBits _ _ _ => 0x00000004
  | .finish _ => 0x00000005
  | .tableRead _ => 0x00000006

/-- The encoded header has the fixed bits of its row, and no other row's. -/
def Statement (i : Instr) : Prop := (encode i).header &&& mask i = pattern i

theorem config (w : BitVec 8) (r : Bool) (poly ini xorout : BitVec maxWidth) :
    Statement (.config w r poly ini xorout) := by
  ext j hj
  simp only [encode, mask, pattern]
  interval_cases j <;> simp [← BitVec.getLsbD_eq_getElem, getLsbD_placeField, opConfig]

theorem init (ch : BitVec 4) : Statement (.init ch) := by
  ext j hj
  simp only [encode, mask, pattern]
  interval_cases j <;> simp [← BitVec.getLsbD_eq_getElem, getLsbD_placeField, opInit]

theorem update (ch : BitVec 4) (data : List Byte) : Statement (.update ch data) := by
  ext j hj
  simp only [encode, mask, pattern]
  interval_cases j <;> simp [← BitVec.getLsbD_eq_getElem, getLsbD_placeField, opUpdate]

theorem updateBits (ch : BitVec 4) (bits : Byte) (k : BitVec 4) : Statement (.updateBits ch bits k) := by
  ext j hj
  simp only [encode, mask, pattern]
  interval_cases j <;> simp [← BitVec.getLsbD_eq_getElem, getLsbD_placeField, opUpdateBits]

theorem finish (ch : BitVec 4) : Statement (.finish ch) := by
  ext j hj
  simp only [encode, mask, pattern]
  interval_cases j <;> simp [← BitVec.getLsbD_eq_getElem, getLsbD_placeField, opFinish]

theorem tableRead (idx : Byte) : Statement (.tableRead idx) := by
  ext j hj
  simp only [encode, mask, pattern]
  interval_cases j <;> simp [← BitVec.getLsbD_eq_getElem, getLsbD_placeField, opTableRead]

end Sys2Proof.Laws.TableRow
end

