-- ==== Sys2Proof/Laws/Port.lean ====
section
/-!
SUPPORT. What a step does with the ports: it takes a whole command, or leaves one in flight, or waits.
-/

namespace Sys2Proof

/-- The decoder looks at no more beats than the header calls for. -/
theorem decode_append (h : Header) (ops ops' : List (BitVec maxWidth)) (bs bs' : List Byte)
    (h1 : payloadOperands h ≤ ops.length) (h2 : payloadBytes h ≤ bs.length) :
    decode h (ops ++ ops') (bs ++ bs') = decode h ops bs := by
  unfold decode
  by_cases hc : headerOp h = opConfig
  · simp only [if_pos hc]
    rw [payloadOperands, if_pos hc] at h1
    match ops, h1 with
    | _ :: _ :: _ :: _, _ => rfl
  · simp only [if_neg hc, List.length_append]
    have : ¬ bs.length + bs'.length < payloadBytes h := by omega
    have h3 : ¬ bs.length < payloadBytes h := by omega
    simp only [this, h3, if_false, List.take_append_of_le_length h2]

namespace Machine

variable {N : Nat}

/-- What `gather` does with a new header. -/
theorem gather_new (e : Engine N) (h : Header) :
    e.gather ⟨h, [], []⟩ =
      match decode h (widenBeats (e.operandLane.take (payloadOperands h))) (e.byteLane.take (payloadBytes h)) with
      | .incomplete =>
        .idle { e with
          flight := some ⟨h, e.operandLane.take (payloadOperands h), e.byteLane.take (payloadBytes h)⟩
          operandLane := e.operandLane.drop (payloadOperands h)
          byteLane := e.byteLane.drop (payloadBytes h) }
      | .rejected c =>
        .rejected c { e with
          flight := none
          operandLane := e.operandLane.drop (payloadOperands h)
          byteLane := e.byteLane.drop (payloadBytes h) }
      | .command i =>
        .command i { e with
          flight := none
          operandLane := e.operandLane.drop (payloadOperands h)
          byteLane := e.byteLane.drop (payloadBytes h) } := rfl

theorem receive_head {e : Engine N} {h : Header} {rest : List Header} (hr : e.resetLine = false) (hf : e.flight = none)
    (hc : e.commandLane = h :: rest) : e.receive = { e with commandLane := rest }.gather ⟨h, [], []⟩ := by
  simp only [Engine.receive, hr, hf, hc, Bool.false_eq_true, if_false]

theorem receive_flight {e : Engine N} {f : Flight N} (hr : e.resetLine = false) (hf : e.flight = some f) :
    e.receive = e.gather f := by
  simp only [Engine.receive, hr, hf, Bool.false_eq_true, if_false]

/-- The engine after a step (`step_eq`). -/
def Engine.next (e : Engine N) : Engine N :=
  match e.receive with
  | .idle e' => e'
  | .rejected c e' => e'.perform fun e => e.raise c
  | .command i e' => e'.run1 i

/-- Every step is a next state of the same storage width. -/
theorem step_eq (n : StorageWidth) (e : Engine n.bits) : step ⟨n, e⟩ = .next ⟨n, e.next⟩ := by
  unfold step Engine.next
  cases e.receive with
  | idle e' => rfl
  | rejected c e' => rfl
  | command i e' => exact exec_eq ..

/-- The engine with its ports and the command in flight replaced. -/
abbrev Engine.withPorts (e : Engine N) (fl : Option (Flight N)) (cl : List Header) (ol : List (BitVec N))
    (bl : List Byte) :
    Engine N :=
  { e with flight := fl, commandLane := cl, operandLane := ol, byteLane := bl }

/-- A step that finds a header whose payload is complete rejects it or runs it, with its words taken. -/
theorem next_of_head {e : Engine N} {h : Header} {rest : List Header} (hr : e.resetLine = false) (hf : e.flight = none)
    (hc : e.commandLane = h :: rest) (h1 : payloadOperands h ≤ e.operandLane.length)
    (h2 : payloadBytes h ≤ e.byteLane.length) :
    let taken := e.withPorts none rest (e.operandLane.drop (payloadOperands h)) (e.byteLane.drop (payloadBytes h))
    let decoded := decode h (widenBeats (e.operandLane.take (payloadOperands h))) (e.byteLane.take (payloadBytes h))
    (∃ c, decoded = .rejected c ∧ e.next = taken.perform fun e => e.raise c) ∨
      ∃ i, decoded = .command i ∧ e.next = taken.run1 i := by
  intro taken decoded
  unfold Engine.next
  rw [receive_head hr hf hc, gather_new]
  cases hd : decode h (widenBeats (e.operandLane.take (payloadOperands h))) (e.byteLane.take (payloadBytes h)) with
  | incomplete =>
    have := (decode_incomplete_iff _ _ _).mp hd
    simp [widenBeats] at this
    omega
  | rejected c => exact .inl ⟨c, hd, rfl⟩
  | command i => exact .inr ⟨i, hd, rfl⟩

/-- Everything `gather` can do. -/
theorem gather_cases (e : Engine N) (f : Flight N) :
    (∃ g ol bl, (g.operands.length < payloadOperands g.header ∨ g.bytes.length < payloadBytes g.header) ∧
      e.gather f = .idle (e.withPorts (some g) e.commandLane ol bl)) ∨
    (∃ c ol bl, e.gather f = .rejected c (e.withPorts none e.commandLane ol bl)) ∨
    (∃ i ol bl, e.gather f = .command i (e.withPorts none e.commandLane ol bl)) := by
  unfold Engine.gather
  split
  · next h => exact .inl ⟨_, _, _, by simpa [widenBeats, Engine.filled] using (decode_incomplete_iff _ _ _).mp h, rfl⟩
  · exact .inr (.inl ⟨_, _, _, rfl⟩)
  · exact .inr (.inr ⟨_, _, _, rfl⟩)

/-- Everything `receive` can do. -/
theorem receive_cases (e : Engine N) :
    (e.resetLine = true ∧ e.receive = .idle e.resetNow) ∨
    (e.resetLine = false ∧
      (e.receive = .idle e ∨
      (∃ g cl ol bl, (g.operands.length < payloadOperands g.header ∨ g.bytes.length < payloadBytes g.header) ∧
        e.receive = .idle (e.withPorts (some g) cl ol bl)) ∨
      (∃ c cl ol bl, e.receive = .rejected c (e.withPorts none cl ol bl)) ∨
      (∃ i cl ol bl, e.receive = .command i (e.withPorts none cl ol bl)))) := by
  unfold Engine.receive
  by_cases hr : e.resetLine = true
  · exact .inl ⟨hr, if_pos hr⟩
  · refine .inr ⟨by simpa using hr, ?_⟩
    rw [if_neg hr]
    split
    · next f _ =>
      rcases gather_cases e f with ⟨g, ol, bl, hg, h⟩ | ⟨c, ol, bl, h⟩ | ⟨i, ol, bl, h⟩
      · exact .inr (.inl ⟨g, _, ol, bl, hg, h⟩)
      · exact .inr (.inr (.inl ⟨c, _, ol, bl, h⟩))
      · exact .inr (.inr (.inr ⟨i, _, ol, bl, h⟩))
    · next h' rest _ _ =>
      rcases gather_cases { e with commandLane := rest } ⟨h', [], []⟩ with
        ⟨g, ol, bl, hg, h⟩ | ⟨c, ol, bl, h⟩ | ⟨i, ol, bl, h⟩
      · exact .inr (.inl ⟨g, _, ol, bl, hg, h⟩)
      · exact .inr (.inr (.inl ⟨c, _, ol, bl, h⟩))
      · exact .inr (.inr (.inr ⟨i, _, ol, bl, h⟩))
    · exact .inl rfl

end Machine

end Sys2Proof
end

