-- ==== Sys2Proof/Tests/Slice0.lean ====
section
/-!
SUPPORT. Tests, each expected value taken from the spec (spec/95_test_vectors.md unless a rule is named), and for each obligation
with hypotheses a witness: a concrete state and operands that meet them all.
-/

-- One proof at a time: some hundred kernel evaluations at once run out of threads.
set_option Elab.async false

namespace Sys2Proof.Tests

open Sys2Proof Sys2Proof.Machine

/-! ### Small states -/

/-- An unconfigured engine with `count` channels; every register holds a 0 that no test looks at. -/
def blank (N count : Nat) : Engine N where
  desc := ⟨0, 0, 0, 0, false, Vector.replicate 256 0⟩
  channels := List.replicate count ⟨0, false⟩
  cfgValid := false
  err := false
  cause := 0
  responses := []
  refused := false
  flight := none
  resetLine := false
  commandLane := []
  operandLane := []
  byteLane := []
  draws := 0

/-- That engine configured with `CONFIG W, R, poly, init, xorout`. -/
def configured (N count W : Nat) (r : Bool) (poly init xorout : BitVec N) : Engine N :=
  (blank N count).configure (Descriptor.build W r poly init xorout)

/-- V5 with two channels: `N` = 8, `CONFIG 7, 0, 0x09, 0x7F, 0` (non-reflected, OFFSET 1). -/
def crc7 : Engine StorageWidth.w8.bits := configured 8 2 7 false 0x09 0x7F 0

/-- V1: `N` = 32, `CONFIG 32, 1, 0x04C11DB7, 0xFFFFFFFF, 0xFFFFFFFF` (reflected). -/
def crc32 : Engine StorageWidth.w32.bits := configured 32 1 32 true 0x04C11DB7 0xFFFFFFFF 0xFFFFFFFF

/-- "123456789" -/
def digits : List Byte := [0x31, 0x32, 0x33, 0x34, 0x35, 0x36, 0x37, 0x38, 0x39]

/-- The last response after a step, as integers. -/
def last (o : Host.Outcome State Fault Refusal) : Option (Nat × Nat) :=
  match o with
  | .next s => s.engine.responses.getLast?.map Response.asInteger
  | .fault _ => none
  | .refused _ => none

/-- CRC and ALIGNED of a channel after a step. -/
def channelAfter (ch : BitVec 4) (o : Host.Outcome State Fault Refusal) : Option (Nat × Bool) :=
  match o with
  | .next s => (s.engine.channel? ch).map fun c => (c.crc.toNat, c.aligned)
  | .fault _ => none
  | .refused _ => none

/-- POLY, INIT, OFFSET and the entries 01, 80 and FF after a step. -/
def descriptorAfter (o : Host.Outcome State Fault Refusal) : Option (List Nat) :=
  match o with
  | .next s =>
    some [s.engine.desc.poly.toNat, s.engine.desc.init.toNat, s.engine.desc.offset, (s.engine.desc.entry 0x01).toNat,
      (s.engine.desc.entry 0x80).toNat, (s.engine.desc.entry 0xFF).toNat]
  | .fault _ => none
  | .refused _ => none

/-- STATUS after a step. -/
def statusAfter (o : Host.Outcome State Fault Refusal) : Option (BitVec 32) :=
  match o with
  | .next s => some s.status
  | .fault _ => none
  | .refused _ => none

/-! ### Well-formedness: one ill-formed term for each check, and its well-formed neighbour (R100, R96) -/

theorem test_wellFormed_poly : (Instr.config 8 false 0x100 0 0).WellFormed .w8 = false ∧
    (Instr.config 8 false 0xFF 0 0).WellFormed .w8 = true := by decide

theorem test_wellFormed_init : (Instr.config 8 false 0 0x100 0).WellFormed .w8 = false ∧
    (Instr.config 8 false 0 0xFF 0).WellFormed .w8 = true := by decide

theorem test_wellFormed_xorout : (Instr.config 8 false 0 0 0x100).WellFormed .w8 = false ∧
    (Instr.config 8 false 0 0 0xFF).WellFormed .w8 = true := by decide

theorem test_wellFormed_len : (Instr.update 0 (List.replicate (2 ^ 24) 0)).WellFormed .w8 = false ∧
    (Instr.update 0 digits).WellFormed .w8 = true := by
  constructor
  · simp only [Instr.WellFormed, fitsLen, List.length_replicate, Nat.lt_irrefl, decide_false]
  · decide

theorem test_wellFormed_sendable : (Instr.config 0 true 0 0 0).WellFormed .w8 = true ∧
    (Instr.init 15).WellFormed .w8 = true ∧ (Instr.updateBits 15 0xFF 15).WellFormed .w8 = true ∧
    (Instr.finish 15).WellFormed .w8 = true ∧ (Instr.tableRead 0xFF).WellFormed .w8 = true := by decide

/-! ### Decoding: words written out from spec/30_encoding.md R94 to R98 (V80) -/

/-- CONFIG 12, 0: bits 31:17 zero, REFLECT 0, WIDTH 00001100, bits 7:4 zero, OP 0001. -/
theorem test_decode_config : decode 0b000000000000000_0_00001100_0000_0001 [0x80F, 0, 0] [] =
    .command (.config 12 false 0x80F 0 0) := by decide

theorem test_decode_config_reflected : decode 0x00010801 [0x07, 0xFF, 0] [] =
    .command (.config 8 true 0x07 0xFF 0) := by decide

/-- INIT c9: bits 31:8 zero, CH 1001, OP 0010. -/
theorem test_decode_init : decode 0b000000000000000000000000_1001_0010 [] [] = .command (.init 9) := by decide

/-- UPDATE c1 with LEN 2: LEN in bits 31:8, CH 0001, OP 0011; a third byte is not taken. -/
theorem test_decode_update : decode 0b000000000000000000000010_0001_0011 [] [0xAA, 0xBB, 0xCC] =
    .command (.update 1 [0xAA, 0xBB]) := by decide

/-- UPDATE_BITS c1, 0x50, 3: bits 31:20 zero, K 0011, BITS 01010000, CH 0001, OP 0100. -/
theorem test_decode_updateBits : decode 0b000000000000_0011_01010000_0001_0100 [] [] =
    .command (.updateBits 1 0b01010000 3) := by decide

/-- FINISH c2: bits 31:8 zero, CH 0010, OP 0101. -/
theorem test_decode_finish : decode 0b000000000000000000000000_0010_0101 [] [] = .command (.finish 2) := by decide

/-- TABLE_READ 0x80: bits 31:16 zero, IDX 10000000, bits 7:4 zero, OP 0110. -/
theorem test_decode_tableRead : decode 0b0000000000000000_10000000_0000_0110 [] [] = .command (.tableRead 0x80) := by
  decide

/-- Reserved opcodes and reserved bits (V80, R102, R103). -/
theorem test_decode_rejected : decode 0x00000000 [] [] = .rejected .illegalOp ∧
    decode 0x0000000F [] [] = .rejected .illegalOp ∧ decode 0x00000007 [] [] = .rejected .illegalOp ∧
    decode 0x00022001 [1, 2, 3] [] = .rejected .reservedField ∧ decode 0x00000811 [1, 2, 3] [] = .rejected .reservedField ∧
    decode 0x00000102 [] [] = .rejected .reservedField ∧ decode 0x00180014 [] [] = .rejected .reservedField ∧
    decode 0x80000005 [] [] = .rejected .reservedField ∧ decode 0x00010006 [] [] = .rejected .reservedField ∧
    decode 0x00000016 [] [] = .rejected .reservedField := by decide

/-- The payload is waited for before anything is rejected (R101); UPDATE has no reserved bit (R96). -/
theorem test_decode_payload : decode 0x00022001 [1, 2] [] = .incomplete ∧ decode 0x00000103 [] [] = .incomplete ∧
    payloadBytes 0xFFFFFF03 = 0xFFFFFF ∧ payloadOperands 0x00022001 = 3 ∧ payloadOperands 0x0000000F = 0 := by decide

/-- The table's numbering: the header is bits 31:0 and the payload follows it. -/
theorem test_decodeTableWord : decodeTableWord 32 0x00000025 = some (.finish 2) ∧
    decodeTableWord 32 0x00012001 = some (.config 32 true 0 0 0) ∧
    decodeTableWord 128 (0x00012001 + 0x04C11DB7 * 2 ^ 32 + 0xFFFFFFFF * 2 ^ 64) =
      some (.config 32 true 0x04C11DB7 0xFFFFFFFF 0) ∧
    decodeTableWord 48 (0x00000203 + 0xAA * 2 ^ 32 + 0xBB * 2 ^ 40) = some (.update 0 [0xAA, 0xBB]) ∧
    decodeTableWord 32 0x0000000F = none ∧ decodeTableWord 32 0x00000102 = none := by decide +kernel

/-! ### One step of each command -/

/-- V1. -/
theorem test_config_reflected :
    descriptorAfter (exec (.config 32 true 0x04C11DB7 0xFFFFFFFF 0xFFFFFFFF) ⟨.w32, blank 32 1⟩) =
      some [0xEDB88320, 0xFFFFFFFF, 0, 0x77073096, 0xEDB88320, 0x2D02EF8D] := by decide +kernel

/-- V6: `N` = 16, OFFSET 9. -/
theorem test_config_narrow : descriptorAfter (exec (.config 7 false 0x09 0 0) ⟨.w16, blank 16 1⟩) =
    some [0x1200, 0, 9, 0x1200, 0x8200, 0xF200] := by decide +kernel

/-- V50: INIT responds (0, 0) and loads INIT. -/
theorem test_init : last (exec (.init 0) ⟨.w32, crc32⟩) = some (0, 0) ∧
    channelAfter 0 (exec (.init 0) ⟨.w32, crc32⟩) = some (0xFFFFFFFF, false) := by decide +kernel

/-- V71: FINISH c1 on an engine with one channel. -/
theorem test_finish_badChannel : last (exec (.finish 1) ⟨.w32, crc32⟩) = some (3, 0) := by decide +kernel

/-- V20: the check value of CRC-32. -/
theorem test_update_reflected : last (exec (.update 0 digits) ⟨.w32, crc32⟩) = some (0, 0xCBF43926) ∧
    channelAfter 0 (exec (.update 0 digits) ⟨.w32, crc32⟩) = some (0x340BC6D9, false) := by decide +kernel

/-- V34(a): a narrow non-reflected UPDATE aligns the register once. -/
theorem test_update_narrow : last (exec (.update 0 digits) ⟨.w8, crc7⟩) = some (0, 0x50) ∧
    channelAfter 0 (exec (.update 0 digits) ⟨.w8, crc7⟩) = some (0xA0, true) := by decide +kernel

/-- V41: five message bits, with POLY pre-shifted. -/
theorem test_updateBits : last (exec (.updateBits 0 0b01010000 3) ⟨.w8, configured 8 1 7 false 0x09 0 0⟩) =
      some (0, 0x5A) ∧
    channelAfter 0 (exec (.updateBits 0 0b01010000 3) ⟨.w8, configured 8 1 7 false 0x09 0 0⟩) =
      some (0xB4, true) := by decide +kernel

/-- V72: PRECOND_REFLECT wins over PRECOND_OFFSET. -/
theorem test_updateBits_reflected :
    last (exec (.updateBits 0 0x80 9) ⟨.w8, configured 8 1 8 true 0x07 0xFF 0⟩) = some (5, 0) ∧
    statusAfter (exec (.updateBits 0 0x80 9) ⟨.w8, configured 8 1 8 true 0x07 0xFF 0⟩) = some 0x00000053 := by
  decide +kernel

/-- V34(a), V52: the empty message; FINISH does not align. -/
theorem test_finish : last (exec (.finish 0) ⟨.w8, crc7⟩) = some (0, 0x7F) ∧
    channelAfter 0 (exec (.finish 0) ⟨.w8, crc7⟩) = some (0x7F, false) := by decide +kernel

/-- V60: the entry as stored. -/
theorem test_tableRead : last (exec (.tableRead 0x80) ⟨.w32, crc32⟩) = some (0, 0xEDB88320) ∧
    last (exec (.tableRead 0x00) ⟨.w32, crc32⟩) = some (0, 0) := by decide +kernel

/-- V70: TABLE_READ before any CONFIG. -/
theorem test_tableRead_unconfigured : last (exec (.tableRead 0x80) ⟨.w8, blank 8 1⟩) = some (4, 0) ∧
    statusAfter (exec (.tableRead 0x80) ⟨.w8, blank 8 1⟩) = some 0x00000042 := by decide +kernel

/-! ### A step from reset -/

/-- From reset, with a command presented: CONFIG takes its three beats, and FINISH is rejected (V1, V70). -/
theorem test_withFetchWord :
    last (step (State.reset.withFetchWord 128 (0x00012001 + 0x04C11DB7 * 2 ^ 32 + 0xFFFFFFFF * 2 ^ 64))) = some (0, 0) ∧
    descriptorAfter (step (State.reset.withFetchWord 128 (0x00012001 + 0x04C11DB7 * 2 ^ 32 + 0xFFFFFFFF * 2 ^ 64))) =
      some [0xEDB88320, 0xFFFFFFFF, 0, 0x77073096, 0xEDB88320, 0x2D02EF8D] ∧
    last (step (State.reset.withFetchWord 32 0x00000005)) = some (4, 0) := by decide +kernel

/-- The step after `withFetchWord` is `exec` of the decoded command (UPDATE c0 with two bytes). -/
theorem test_withFetchWord_runs : step (State.reset.withFetchWord 48 (0x00000203 + 0xAA * 2 ^ 32 + 0xBB * 2 ^ 40)) =
    exec (.update 0 [0xAA, 0xBB]) State.reset := by rfl

/-- A reserved opcode takes no payload, and the step goes on (V70). -/
theorem test_step_illegal : last (step ⟨.w8, { blank 8 1 with commandLane := [0x0000000F, 0x00000005] }⟩) = some (1, 0) ∧
    statusAfter (step ⟨.w8, { blank 8 1 with commandLane := [0x0000000F, 0x00000005] }⟩) = some 0x00000012 := by
  decide +kernel

/-! ### Witnesses: the hypotheses of each obligation that has some, met together -/

/-- `e` with words presented on its ports. -/
def sent {N : Nat} (e : Engine N) (headers : List Header) (operands : List (BitVec N)) (bytes : List Byte) : Engine N :=
  { e with commandLane := headers, operandLane := operands, byteLane := bytes }

/-- `e` with a header in flight. -/
def waiting {N : Nat} (e : Engine N) (h : Header) (operands : List (BitVec N)) (bytes : List Byte) : Engine N :=
  { e with flight := some ⟨h, operands, bytes⟩ }

/-- `e` with a recorded error. -/
def failed {N : Nat} (e : Engine N) : Engine N := { e with err := true, cause := 2, responses := [⟨2, 0⟩] }

theorem witness_DecodeOfEncodeIsTheCommand : (Instr.config 255 true 0xFF 0xFF 0xFF).WellFormed .w8 = true ∧
    (Instr.update 15 digits).WellFormed .w128 = true := by decide

/-- Both clauses: an UPDATE c1 of two bytes at the head of the ports with a FINISH behind it, and a CONFIG to present. -/
theorem witness_StepRunsTheDecodedCommand :
    let e := sent crc7 [0x00000213, 0x00000005] [] [0xAA, 0xBB, 0xCC]
    (e.resetLine = false ∧ e.flight = none ∧ e.commandLane = 0x00000213 :: [0x00000005] ∧
      decode 0x00000213 (widenBeats (e.operandLane.take (payloadOperands 0x00000213)))
        (e.byteLane.take (payloadBytes 0x00000213)) = .command (.update 1 [0xAA, 0xBB])) ∧
    ((Instr.config 7 false 0x09 0 0).WellFormed .w8 = true ∧ crc7.resetLine = false ∧ crc7.flight = none) := by
  decide +kernel

/-- A rejected CONFIG with its beats, an UPDATE of no bytes, an UPDATE of two on a missing channel. -/
theorem witness_PayloadLengthDependsOnOpAlone :
    let a := sent crc7 [0x00022001] ([1, 2, 3] ++ [4]) []
    let b := sent crc7 [0x00000003] [] [0xAA]
    let c := sent crc7 [0x000002F3] [] ([0xAA, 0xBB] ++ [])
    (a.resetLine = false ∧ a.flight = none ∧ a.commandLane = 0x00022001 :: [] ∧ a.operandLane = [1, 2, 3] ++ [4] ∧
      ([1, 2, 3] : List (BitVec 8)).length = (if (0x00022001 : Header).extractLsb' 0 4 = 1#4 then 3 else 0)) ∧
    (b.byteLane = [] ++ [0xAA] ∧ (if (0x00000003 : Header).extractLsb' 0 4 = 3#4 then
      ((0x00000003 : Header).extractLsb' 8 24).toNat else 0) = 0) ∧
    (c.byteLane = [0xAA, 0xBB] ++ [] ∧ (if (0x000002F3 : Header).extractLsb' 0 4 = 3#4 then
      ((0x000002F3 : Header).extractLsb' 8 24).toNat else 0) = 2) := by decide +kernel

theorem witness_EveryCommandAppendsOneResponse :
    let e := sent crc7 [0x00010801] [0x07, 0xFF, 0] []
    e.resetLine = false ∧ e.flight = none ∧ e.commandLane = 0x00010801 :: [] ∧
      payloadOperands 0x00010801 ≤ e.operandLane.length ∧ payloadBytes 0x00010801 ≤ e.byteLane.length := by
  decide +kernel

/-- Either half of the hypothesis: CONFIG with two beats of three, and UPDATE with one byte of two. -/
theorem witness_InFlightChangesNoState :
    let a := { waiting crc7 0x00010801 [0x07] [] with operandLane := [0xFF] }
    let b := waiting crc7 0x00000203 [] [0xAA]
    (a.resetLine = false ∧ a.flight = some ⟨0x00010801, [0x07], []⟩ ∧
      [(0x07 : BitVec 8)].length + a.operandLane.length < payloadOperands 0x00010801) ∧
    (b.resetLine = false ∧ b.flight = some ⟨0x00000203, [], [0xAA]⟩ ∧
      [(0xAA : Byte)].length + b.byteLane.length < payloadBytes 0x00000203) := by decide +kernel

theorem witness_SplitPayloadExecutesAtItsLastBeat :
    ((Instr.config 7 false 0x09 0 0).WellFormed .w8 = true ∧ crc7.resetLine = false ∧ crc7.flight = none ∧
      crc7.commandLane = [] ∧ crc7.operandLane = [] ∧ crc7.byteLane = [] ∧
      (encode (.config 7 false 0x09 0 0)).operands.map (laneValue StorageWidth.w8.bits) = [0x09] ++ [0, 0] ∧
      (encode (.config 7 false 0x09 0 0)).bytes = [] ++ []) ∧
    ((Instr.update 0 [1, 2]).WellFormed .w8 = true ∧ (encode (.update 0 [1, 2])).bytes = [1] ++ [2]) ∧
    (([1, 2] ++ [3] : List (BitVec 8)).length = payloadOperands 0x00020701 ∧
      ([] ++ [] : List Byte).length = payloadBytes 0x00020701) := by decide +kernel

/-- Both clauses at their boundary: the third beat has arrived, and has not; a reserved bit at either end of 31:17 and of 7:4. -/
theorem witness_MalformedConfigIsRejectedAtItsLastBeat :
    ([0x00020701, 0x80000701, 0x00000711, 0x00000781].all fun h : Header =>
      decide (h.extractLsb' 0 4 = 1#4 ∧ (h.extractLsb' 17 15 ≠ 0#15 ∨ h.extractLsb' 4 4 ≠ 0#4))) = true ∧
    (let f : Flight 8 := ⟨0x00020701, [0x09], []⟩
      let a : Engine 8 := { sent crc7 [] [1, 2] [] with flight := some f }
      let b : Engine 8 := { sent crc7 [] [1] [] with flight := some f }
      (a.refused = false ∧ a.resetLine = false ∧ a.flight = some f ∧ 3 ≤ f.operands.length + a.operandLane.length) ∧
      (b.refused = false ∧ b.resetLine = false ∧ b.flight = some f ∧ f.operands.length + b.operandLane.length < 3)) := by
  decide +kernel

theorem witness_WaitsForTheNextHeader : crc7.resetLine = false ∧ crc7.flight = none ∧ crc7.commandLane = [] := by
  decide +kernel

/-- OP 0, 7 and 15, the boundaries of the reserved opcodes. -/
theorem witness_ReservedOpIsIllegalWithoutPayload :
    let e := sent crc7 [0x00000000, 0x00000005] [] [0xAA]
    (e.refused = false ∧ e.resetLine = false ∧ e.flight = none ∧ e.commandLane = 0x00000000 :: [0x00000005]) ∧
    (0x00000000 : Header).extractLsb' 0 4 = 0#4 ∧ 7 ≤ ((0xFFFFFFF7 : Header).extractLsb' 0 4).toNat ∧
    7 ≤ ((0x0000000F : Header).extractLsb' 0 4).toNat := by decide +kernel

/-- One state for every clause: the hypotheses hold of it with each of these headers (codes 1, 2, 3, 6, 0 and, on an
unconfigured engine, 4; in reflected mode, 5; and a CONFIG of width 9 on `N` = 8). -/
theorem witness_ChecksRunInTheirOrder :
    ([0x0000000F, 0x00180014, 0x00000025, 0x00083904, 0x00073904, 0x00000901, 0x00000801, 0x00008006].all fun h : Header =>
      let e := sent crc7 [h] [1, 2, 3] []
      decide (e.refused = false ∧ e.resetLine = false ∧ e.flight = none ∧ e.commandLane = h :: [] ∧
        (if h.extractLsb' 0 4 = 1#4 then 3 else 0) ≤ e.operandLane.length ∧
        (if h.extractLsb' 0 4 = 3#4 then (h.extractLsb' 8 24).toNat else 0) ≤ e.byteLane.length)) = true ∧
    ((blank 8 1).refused = false ∧ (blank 8 1).resetLine = false ∧ (blank 8 1).flight = none ∧
      (sent (blank 8 1) [0x00000005] [] []).commandLane = 0x00000005 :: [] ∧ (blank 8 1).cfgValid = false) ∧
    (crc32.refused = false ∧ crc32.resetLine = false ∧ crc32.flight = none ∧
      (sent crc32 [0x00098004] [] []).commandLane = 0x00098004 :: [] ∧ crc32.desc.reflect = true) := by decide +kernel

/-- A rejected command of each clause: FINISH c2 with two channels, and CONFIG with bit 17 set and its beats. -/
theorem witness_RejectionWritesStatusOnly :
    (crc7.refused = false ∧ last (exec (.finish 2) ⟨.w8, crc7⟩) = some (3, 0)) ∧
    (let e := sent crc7 [0x00022001, 0x00000005] [1, 2, 3] []
    e.refused = false ∧ e.resetLine = false ∧ e.flight = none ∧ e.commandLane = 0x00022001 :: [0x00000005] ∧
      payloadOperands 0x00022001 ≤ e.operandLane.length ∧ payloadBytes 0x00022001 ≤ e.byteLane.length) := by
  decide +kernel

/-- The first channel number that does not exist, and the last of the field. -/
theorem witness_ChannelAboveNaccIsRejected : crc7.refused = false ∧ crc7.nacc ≤ (2 : BitVec 4).toNat ∧
    crc7.nacc ≤ (15 : BitVec 4).toNat := by decide +kernel

theorem witness_CommandsBeforeConfigAreRejected : (blank 8 1).refused = false ∧ (blank 8 1).cfgValid = false ∧
    (0 : BitVec 4).toNat < (blank 8 1).nacc ∧ 1 ≤ BitVec.toNat (8 : BitVec 8) ∧
    BitVec.toNat (8 : BitVec 8) ≤ StorageWidth.w8.bits := by decide

/-- The reflected clause at any K, the non-reflected one from K = 8. -/
theorem witness_UpdateBitsPreconditionsAreChecked :
    (crc32.Ready ∧ (0 : BitVec 4).toNat < crc32.nacc ∧ crc32.desc.reflect = true) ∧
    (crc7.Ready ∧ (1 : BitVec 4).toNat < crc7.nacc ∧ crc7.desc.reflect = false ∧ 8 ≤ (8 : BitVec 4).toNat) := by
  decide +kernel

theorem witness_RejectedCommandLeavesNoTrace : crc7.refused = false ∧
    exec (.finish 2) ⟨.w8, crc7⟩ = .next ⟨.w8, crc7.raise .badChannel⟩ ∧
    (crc7.raise .badChannel).responses = crc7.responses ++ [⟨3, 0⟩] ∧ (3 : BitVec 4) ≠ 0 := by
  refine ⟨rfl, rfl, rfl, by decide⟩

/-- Without reset and with it. -/
theorem witness_OnlyResetClearsStatus :
    (step ⟨.w8, failed crc7⟩ = .next ⟨.w8, failed crc7⟩ ∧ (failed crc7).resetLine = false ∧
      (failed crc7).refused = false ∧ (failed crc7).cfgValid = true ∧ (failed crc7).err = true) ∧
    (step ⟨.w8, (failed crc7).hostReset⟩ = .next ⟨.w8, (failed crc7).hostReset.resetNow⟩ ∧
      (failed crc7).hostReset.resetLine = true) := by
  refine ⟨⟨rfl, rfl, rfl, rfl, rfl⟩, rfl, rfl⟩

/-- The boundary widths 1 and `N`. -/
theorem witness_ConfigWritesDescriptorAndChannels : (blank 8 1).refused = false ∧ 1 ≤ (1 : BitVec 8).toNat ∧
    (1 : BitVec 8).toNat ≤ StorageWidth.w8.bits ∧ 1 ≤ (8 : BitVec 8).toNat ∧
    (8 : BitVec 8).toNat ≤ StorageWidth.w8.bits := by decide

theorem witness_ConfigFillsTheTable : crc32.refused = false ∧ 1 ≤ (32 : BitVec 8).toNat ∧
    (32 : BitVec 8).toNat ≤ StorageWidth.w32.bits := by decide +kernel

theorem witness_ConfigDiscardsWhatWasThere : crc7.refused = false ∧ (blank 8 2).refused = false ∧
    crc7.nacc = (blank 8 2).nacc ∧ 1 ≤ (3 : BitVec 8).toNat ∧ (3 : BitVec 8).toNat ≤ StorageWidth.w8.bits := by
  decide +kernel

/-- A width of 0, the first above `N`, and the greatest of the field. -/
theorem witness_InvalidWidthSetsRefusedAndNoError : crc7.refused = false ∧ (0 : BitVec 8).toNat = 0 ∧
    StorageWidth.w8.bits < (9 : BitVec 8).toNat ∧ StorageWidth.w128.bits < (255 : BitVec 8).toNat := by decide +kernel

theorem witness_RefusedIsForGood :
    step ⟨.w8, crc7.refuseInvalidWidth⟩ = .next ⟨.w8, crc7.refuseInvalidWidth⟩ ∧
    crc7.refuseInvalidWidth.refused = true ∧
    step ⟨.w8, crc7.refuseInvalidWidth.hostReset⟩ = .next ⟨.w8, crc7.refuseInvalidWidth.hostReset.resetNow⟩ := by
  refine ⟨rfl, rfl, rfl⟩

/-- W = 1, W = N, and two raw operands that agree below bit 7. -/
theorem witness_ConfigCornerCases : (1 ≤ 1 ∧ 1 ≤ StorageWidth.w8.bits) ∧
    (1 ≤ StorageWidth.w8.bits ∧ StorageWidth.w8.bits ≤ StorageWidth.w8.bits) ∧
    (∀ j < 7, (0x89 : BitVec 8).getLsbD j = (0x09 : BitVec 8).getLsbD j) := by decide

theorem witness_TableEntriesAreInRange : 1 ≤ 7 ∧ 7 ≤ StorageWidth.w8.bits ∧ 0 < StorageWidth.w8.bits - 7 := by decide

theorem witness_ResultsDoNotDependOnStorageWidth : (blank 8 1).refused = false ∧ (blank 16 1).refused = false ∧
    (blank 8 1).nacc = (blank 16 1).nacc ∧ 1 ≤ (7 : BitVec 8).toNat ∧ (7 : BitVec 8).toNat ≤ StorageWidth.w8.bits ∧
    (7 : BitVec 8).toNat ≤ StorageWidth.w16.bits ∧ (Instr.config 7 false 0x09 0 0).WellFormed .w8 = true ∧
    (Instr.config 7 false 0x09 0 0).WellFormed .w16 = true ∧
    (∀ w' r' p' q' x', Instr.config w' r' p' q' x' ∉
      [Instr.update 0 digits, .init 1, .updateBits 0 0x50 3, .tableRead 1, .finish 0]) :=
  ⟨rfl, rfl, rfl, by decide, by decide, by decide, by decide, by decide, by simp⟩

theorem witness_ReflectedUpdateResult : crc32.Ready ∧ crc32.desc.reflect = true ∧
    crc32.channel? 0 = some ⟨0xFFFFFFFF, false⟩ := by decide +kernel

theorem witness_NonReflectedUpdateResult : crc7.Ready ∧ crc7.desc.reflect = false ∧
    crc7.channel? 1 = some ⟨0x7F, false⟩ ∧ digits ≠ [] := by decide +kernel

theorem witness_EmptyUpdateChangesNoState : crc7.Ready ∧ crc7.channel? 0 = some ⟨0x7F, false⟩ := by decide +kernel

theorem witness_ChunkingDoesNotMatter : crc7.Ready ∧ (0 : BitVec 4).toNat < crc7.nacc ∧
    [[0x31], [], [0x32, 0x33]] ≠ ([] : List (List Byte)) := by decide +kernel

/-- One descriptor for each clause. -/
theorem witness_ByteStepIsEightBitSteps :
    (crc7.desc.table = genTable crc7.desc.reflect crc7.desc.poly ∧ crc7.desc.reflect = false) ∧
    (crc32.desc.table = genTable crc32.desc.reflect crc32.desc.poly ∧ crc32.desc.reflect = true) :=
  ⟨⟨rfl, rfl⟩, rfl, rfl⟩

/-- K at both ends of its range. -/
theorem witness_UpdateBitsResult : crc7.Ready ∧ crc7.desc.reflect = false ∧ crc7.channel? 0 = some ⟨0x7F, false⟩ ∧
    (0 : BitVec 4).toNat < 8 ∧ (7 : BitVec 4).toNat < 8 := by decide +kernel

/-- V40's two bytes. -/
theorem witness_BitsBelowKDoNotMatter :
    ∀ j, (3 : BitVec 4).toNat ≤ j → (0b01010000 : Byte).getLsbD j = (0b01010111 : Byte).getLsbD j := by
  intro j hj
  rcases Nat.lt_or_ge j 8 with h | h
  · have : 3 ≤ j := hj
    interval_cases j <;> rfl
  · rw [BitVec.getLsbD_of_ge _ _ h, BitVec.getLsbD_of_ge _ _ h]

theorem witness_FullByteThroughTheBitUnit : crc7.Ready ∧ crc7.desc.reflect = false ∧
    crc7.desc.table = genTable false crc7.desc.poly ∧ (1 : BitVec 4).toNat < crc7.nacc :=
  ⟨by decide +kernel, rfl, rfl, by decide +kernel⟩

theorem witness_BitStringLaw : 1 ≤ 7 ∧ 7 ≤ StorageWidth.w8.bits ∧ crc7.Ready ∧
    crc7.desc = Descriptor.build 7 false 0x09 0x7F 0 ∧ crc7.channel? 0 = some ⟨crc7.desc.init, false⟩ ∧
    (∀ i ∈ [Instr.update 0 digits, .updateBits 0 0x39 7, .update 0 []], feedsChannel 0 i = true) :=
  ⟨by decide, by decide, by decide +kernel, rfl, rfl, by decide⟩

theorem witness_InitLoadsOneChannel : crc7.Ready ∧ (1 : BitVec 4).toNat < crc7.nacc := by decide +kernel

/-- An unaligned and an aligned channel, and reflected mode. -/
theorem witness_FinishReportsFin : (crc7.Ready ∧ crc7.channel? 0 = some ⟨0x7F, false⟩) ∧
    ((crc7.setChannel 0 ⟨0xEA, true⟩).Ready ∧ (crc7.setChannel 0 ⟨0xEA, true⟩).channel? 0 = some ⟨0xEA, true⟩) ∧
    (crc32.Ready ∧ crc32.channel? 0 = some ⟨0xFFFFFFFF, false⟩) := by decide +kernel

theorem witness_TableReadReportsTheEntry : crc7.Ready ∧ (0xFF : Byte).toNat < 256 := by decide +kernel

theorem witness_ReadersChangeNoLaterResponse : crc7.Ready ∧
    ((∃ ch : BitVec 4, Instr.finish 1 = .finish ch ∧ ch.toNat < crc7.nacc) ∨ ∃ idx, Instr.finish 1 = .tableRead idx) ∧
    ((∃ ch : BitVec 4, Instr.tableRead 0x80 = .finish ch ∧ ch.toNat < crc7.nacc) ∨
      ∃ idx, Instr.tableRead 0x80 = .tableRead idx) :=
  ⟨by decide +kernel, .inl ⟨1, rfl, by decide +kernel⟩, .inr ⟨0x80, rfl⟩⟩

theorem witness_RepeatedFinishGivesOneValue : crc7.Ready ∧ (0 : BitVec 4).toNat < crc7.nacc := by decide +kernel

theorem witness_EmptyMessageValue : crc7.refused = false ∧ (0 : BitVec 4).toNat < crc7.nacc ∧ 1 ≤ (7 : BitVec 8).toNat ∧
    (7 : BitVec 8).toNat ≤ StorageWidth.w8.bits ∧ crc7.cfgValid = true ∧
    crc7.desc = Descriptor.build (7 : BitVec 8).toNat false ((0x09 : BitVec maxWidth).setWidth 8)
      ((0x7F : BitVec maxWidth).setWidth 8) ((0 : BitVec maxWidth).setWidth 8) :=
  ⟨rfl, by decide +kernel, by decide, by decide, rfl, rfl⟩

theorem witness_FinKeepsHighXoroutBits : crc7.LegalConfig ∧ ⟨0x7F, false⟩ ∈ crc7.channels ∧
    StorageWidth.w8.bits - crc7.desc.offset ≤ 7 := by
  refine ⟨⟨⟨by decide +kernel, rfl, by decide +kernel⟩, by decide +kernel⟩, by decide +kernel, by decide +kernel⟩

theorem witness_InitStartsAFreshMessage : crc7.Ready ∧ (blank 8 1).refused = false ∧ (0 : BitVec 4).toNat < crc7.nacc ∧
    (0 : BitVec 4).toNat < (blank 8 1).nacc ∧ 1 ≤ (7 : BitVec 8).toNat ∧ (7 : BitVec 8).toNat ≤ StorageWidth.w8.bits ∧
    crc7.desc = Descriptor.build (7 : BitVec 8).toNat false ((0x09 : BitVec maxWidth).setWidth 8)
      ((0x7F : BitVec maxWidth).setWidth 8) ((0 : BitVec maxWidth).setWidth 8) ∧
    (∀ i ∈ [Instr.update 0 digits, .updateBits 0 0x50 3, .finish 0, .init 0], namesChannel 0 i = true) :=
  ⟨by decide +kernel, rfl, by decide +kernel, by decide, by decide, by decide, rfl, by decide⟩

/-- Another channel that holds something else, for the second half of the first clause. -/
theorem witness_ChannelsAreIndependent : crc7.refused = false ∧ namesChannel 0 (.update 0 digits) = true ∧
    (1 : BitVec 4) ≠ 0 ∧ ([⟨0x7F, false⟩, ⟨0xEA, true⟩] : List (Channel StorageWidth.w8.bits)).length = crc7.nacc ∧
    ([⟨0x7F, false⟩, ⟨0xEA, true⟩] : List (Channel StorageWidth.w8.bits))[(0 : BitVec 4).toNat]? = crc7.channel? 0 :=
  ⟨rfl, by decide, by decide, by decide +kernel, rfl⟩

theorem witness_OnlyConfigWritesTheDescriptor : crc7.refused = false ∧
    (∀ w r poly ini xorout, Instr.update 0 digits ≠ .config w r poly ini xorout) ∧
    (Instr.config 5 true 0x05 0x1F 0x1F = .config 5 true 0x05 0x1F 0x1F ∧ 1 ≤ BitVec.toNat (5 : BitVec 8) ∧
      BitVec.toNat (5 : BitVec 8) ≤ StorageWidth.w8.bits) :=
  ⟨rfl, fun _ _ _ _ _ h => (nomatch h), rfl, by decide, by decide⟩

theorem witness_StepKeepsTheParameters :
    step ⟨.w8, crc7⟩ = .next ⟨.w8, crc7⟩ ∧
    step ⟨.w8, crc7.hostReset⟩ = .next ⟨.w8, crc7.hostReset.resetNow⟩ := ⟨rfl, rfl⟩

/-- A configured engine with an error recorded and a command in flight is well formed, and it steps. -/
theorem witness_EveryStepKeepsTheEngineWellFormed :
    (State.mk .w8 (waiting (failed crc7) 0x00000203 [] [0xAA])).Inv ∧
    step ⟨.w8, waiting (failed crc7) 0x00000203 [] [0xAA]⟩ =
      .next ⟨.w8, waiting (failed crc7) 0x00000203 [] [0xAA]⟩ := by
  refine ⟨⟨by decide +kernel, by decide +kernel, .inr (by decide), fun _ => ⟨by decide +kernel, by decide +kernel,
    by decide +kernel, fun _ => ⟨⟨by decide +kernel, rfl, by decide +kernel⟩, by decide +kernel⟩⟩⟩, rfl⟩

theorem witness_ResetIsWellFormed : 1 ≤ 1 ∧ 1 ≤ 16 ∧ 16 ≤ 16 := by decide

/-- With an UPDATE in flight. -/
theorem witness_ResetAbandonsTheCommandInFlight : (waiting crc7 0x00000203 [] [0xAA]).hostReset.resetLine = true := rfl

theorem witness_UnspecifiedValuesAreNeverObserved : (blank 8 2).cfgValid = false ∧ crc7.channels.length = (blank 8 2).nacc := by
  decide +kernel

end Sys2Proof.Tests
end

/-!
PROOFS. What every step keeps (spec/00_scope.md, spec/10_state.md): the storage width and NACC, and the well-formedness of the
engine. `Engine.next_cases` says once what a step can do and `Engine.effect_shape` what a command can do; the number of
channels, the command in flight, and the two halves of the invariant are then each followed through these cases.
-/

namespace Sys2Proof.Machine

variable {N : Nat} {e : Engine N}

/-! ### What a step and a command can do -/

/-- Everything a step can do: reset; wait; leave a command in flight; reject or run a command whose words are taken. -/
theorem Engine.next_cases (e : Engine N) :
    (e.resetLine = true ∧ e.next = e.resetNow) ∨
    (e.resetLine = false ∧
      (e.next = e ∨
      (∃ g cl ol bl, (g.operands.length < payloadOperands g.header ∨ g.bytes.length < payloadBytes g.header) ∧
        e.next = e.withPorts (some g) cl ol bl) ∨
      (∃ c cl ol bl, e.next = (e.withPorts none cl ol bl).perform fun e => e.raise c) ∨
      (∃ i cl ol bl, e.next = (e.withPorts none cl ol bl).run1 i))) := by
  unfold Engine.next
  rcases receive_cases e with ⟨hr, h⟩ | ⟨hr, h | ⟨g, cl, ol, bl, hg, h⟩ | ⟨c, cl, ol, bl, h⟩ | ⟨i, cl, ol, bl, h⟩⟩
  · exact .inl ⟨hr, by rw [h]⟩
  · exact .inr ⟨hr, .inl (by rw [h])⟩
  · exact .inr ⟨hr, .inr (.inl ⟨g, cl, ol, bl, hg, by rw [h]⟩)⟩
  · exact .inr ⟨hr, .inr (.inr (.inl ⟨c, cl, ol, bl, by rw [h]⟩))⟩
  · exact .inr ⟨hr, .inr (.inr (.inr ⟨i, cl, ol, bl, by rw [h]⟩))⟩

/-- The shape of every command's effect. A descriptor that CONFIG installs is legal, and so is a channel that a command stores,
where the configuration it is stored under is. -/
theorem Engine.effect_shape (e : Engine N) (i : Instr) :
    (∃ c, e.effect i = e.raise c) ∨
    e.effect i = e.refuseInvalidWidth ∨
    (∃ d : Descriptor N, d.Legal ∧ e.effect i = (e.configure d).respondOk 0) ∨
    (e.cfgValid = true ∧ ∃ ch c v, (8 ≤ N → e.LegalConfig → c.Legal e.desc) ∧
      e.effect i = (e.setChannel ch c).respondOk v) ∨
    (∃ v, e.effect i = e.respondOk v) := by
  rcases e.effect_cases i with ⟨c, h⟩ | ⟨_, _, _, _, _, _, _, h⟩ | ⟨w, _, _, _, _, _, h1, h2, h⟩ |
    ⟨hv, ch, c, hc, h⟩ | ⟨_, _, _, h⟩
  · exact .inl ⟨c, h⟩
  · exact .inr (.inl h)
  · exact .inr (.inr (.inl ⟨_, build_legal (by omega) h2 .., h⟩))
  · have hmem : c ∈ e.channels := Engine.mem_channels_of_channel? hc
    rcases h with ⟨_, h⟩ | ⟨data, _, h⟩ | ⟨bits, k, _, hr, hk, h⟩ | ⟨_, h⟩
    · exact .inr (.inr (.inr (.inl ⟨hv, ch, _, _, fun _ hl => fresh_legal _ hl.1, h⟩)))
    · exact .inr (.inr (.inr (.inl ⟨hv, ch, _, _, fun _ hl => feedBytes_legal hl.1 (hl.2 c hmem) data, h⟩)))
    · exact .inr (.inr (.inr (.inl ⟨hv, ch, _, _,
        fun hN hl => feedBits_legal hN hl.1 (hl.2 c hmem) hr bits _ hk, h⟩)))
    · exact .inr (.inr (.inr (.inr ⟨_, h⟩)))
  · exact .inr (.inr (.inr (.inr ⟨_, h⟩)))

/-! ### The number of channels -/

theorem Engine.perform_nacc {f : Engine N → Engine N} (h : (f e).nacc = e.nacc) : (e.perform f).nacc = e.nacc := by
  unfold Engine.perform
  split
  · exact e.noMeaning_nacc
  · exact h

@[simp] theorem Engine.effect_nacc (e : Engine N) (i : Instr) : (e.effect i).nacc = e.nacc := by
  rcases e.effect_shape i with ⟨_, h⟩ | h | ⟨_, _, h⟩ | ⟨_, _, _, _, _, h⟩ | ⟨_, h⟩ <;> simp [h]

@[simp] theorem Engine.run1_nacc (e : Engine N) (i : Instr) : (e.run1 i).nacc = e.nacc :=
  Engine.perform_nacc (e.effect_nacc i)

@[simp] theorem Engine.next_nacc (e : Engine N) : e.next.nacc = e.nacc := by
  rcases e.next_cases with ⟨_, h⟩ | ⟨_, h | ⟨_, _, _, _, _, h⟩ | ⟨c, _, _, _, h⟩ | ⟨i, _, _, _, h⟩⟩ <;> rw [h]
  · exact e.resetNow_nacc
  · rfl
  · exact Engine.perform_nacc (Engine.raise_nacc _ c)
  · exact Engine.run1_nacc _ i

/-! ### The command in flight -/

theorem Engine.flightLegal_of_none (h : e.flight = none) : e.FlightLegal := by
  simp [Engine.FlightLegal, h]

theorem Engine.perform_flight {f : Engine N → Engine N} (h : (f e).flight = e.flight) :
    (e.perform f).flight = e.flight := by
  unfold Engine.perform
  split
  · exact e.noMeaning_flight
  · exact h

@[simp] theorem Engine.effect_flight (e : Engine N) (i : Instr) : (e.effect i).flight = e.flight := by
  rcases e.effect_shape i with ⟨_, h⟩ | h | ⟨_, _, h⟩ | ⟨_, _, _, _, _, h⟩ | ⟨_, h⟩ <;> simp [h]

@[simp] theorem Engine.run1_flight (e : Engine N) (i : Instr) : (e.run1 i).flight = e.flight :=
  Engine.perform_flight (e.effect_flight i)

/-- Only a command that lacks part of its payload is left in flight (spec/10_state.md R51). -/
theorem Engine.next_flightLegal (hf : e.FlightLegal) : e.next.FlightLegal := by
  rcases e.next_cases with ⟨_, h⟩ | ⟨_, h | ⟨_, _, _, _, hg, h⟩ | ⟨c, _, _, _, h⟩ | ⟨i, _, _, _, h⟩⟩ <;> rw [h]
  · exact Engine.flightLegal_of_none e.resetNow_flight
  · exact hf
  · exact hg
  · exact Engine.flightLegal_of_none (Engine.perform_flight (Engine.raise_flight _ c))
  · exact Engine.flightLegal_of_none (Engine.run1_flight _ i)

/-! ### What the engine reports -/

/-- CAUSE is 0 while ERR is 0, and no code above 6 stands in CAUSE or in a response (spec/10_state.md R42,
spec/60_exceptions.md R231). -/
def Engine.ReportsLegal (e : Engine N) : Prop :=
  (e.err = false → e.cause = 0) ∧ e.cause.toNat ≤ 6 ∧ ∀ r ∈ e.responses, r.code.toNat ≤ 6

theorem causeCode_toNat_le (c : Cause) : (causeCode c).toNat ≤ 6 := by
  cases c <;> decide

theorem Engine.ReportsLegal.respond (h : e.ReportsLegal) {code : BitVec 4} (hcode : code.toNat ≤ 6) (v : BitVec N) :
    (e.respond code v).ReportsLegal := by
  obtain ⟨hclear, hcause, hrsp⟩ := h
  refine ⟨hclear, hcause, fun r hr => ?_⟩
  rcases List.mem_append.mp hr with hold | hnew
  · exact hrsp r hold
  · rwa [List.mem_singleton.mp hnew]

theorem Engine.ReportsLegal.respondOk (h : e.ReportsLegal) (v : BitVec N) : (e.respondOk v).ReportsLegal :=
  h.respond (by decide) v

theorem Engine.ReportsLegal.recordError (h : e.ReportsLegal) (c : Cause) : (e.recordError c).ReportsLegal := by
  obtain ⟨_, hcause, hrsp⟩ := h
  refine ⟨fun herr => (nomatch herr), ?_, hrsp⟩
  rw [Engine.recordError_cause]
  split
  · exact hcause
  · exact causeCode_toNat_le c

theorem Engine.ReportsLegal.raise (h : e.ReportsLegal) (c : Cause) : (e.raise c).ReportsLegal :=
  (h.recordError c).respond (causeCode_toNat_le c) 0

theorem Engine.ReportsLegal.configure (h : e.ReportsLegal) (d : Descriptor N) : (e.configure d).ReportsLegal := h

theorem Engine.ReportsLegal.setChannel (h : e.ReportsLegal) (ch : BitVec 4) (c : Channel N) :
    (e.setChannel ch c).ReportsLegal := h

/-! ### The configuration -/

/-- Once CFG_VALID is 1 the configuration is legal (spec/10_state.md R40). -/
def Engine.ConfigLegal (e : Engine N) : Prop := e.cfgValid = true → e.LegalConfig

theorem Engine.ConfigLegal.respondOk (h : e.ConfigLegal) (v : BitVec N) : (e.respondOk v).ConfigLegal := h

theorem Engine.ConfigLegal.raise (h : e.ConfigLegal) (c : Cause) : (e.raise c).ConfigLegal := h

/-- A legal descriptor loads every channel from its INIT, which is a legal channel. -/
theorem Engine.configLegal_configure (e : Engine N) {d : Descriptor N} (hd : d.Legal) : (e.configure d).ConfigLegal := by
  refine fun _ => ⟨hd, fun c hc => ?_⟩
  obtain ⟨_, _, rfl⟩ := List.mem_map.mp hc
  exact fresh_legal d hd

theorem Engine.LegalConfig.setChannel (h : e.LegalConfig) (ch : BitVec 4) {c : Channel N} (hc : c.Legal e.desc) :
    (e.setChannel ch c).LegalConfig := by
  obtain ⟨hd, hch⟩ := h
  refine ⟨hd, fun x hx => ?_⟩
  rcases List.mem_or_eq_of_mem_set hx with hold | rfl
  · exact hch x hold
  · exact hc

/-! ### The invariant -/

/-- What the invariant says of an engine whose state the spec gives a meaning (spec/10_state.md R52). -/
def Engine.Sound (e : Engine N) : Prop := e.refused = false → e.ReportsLegal ∧ e.ConfigLegal

theorem Engine.inv_iff : e.Inv ↔ 1 ≤ e.nacc ∧ e.nacc ≤ 16 ∧ e.FlightLegal ∧ e.Sound := by
  simp only [Engine.Inv, Engine.Sound, Engine.ReportsLegal, Engine.ConfigLegal, and_assoc]

theorem Engine.Sound.withPorts (h : e.Sound) (fl : Option (Flight N)) (cl : List Header) (ol : List (BitVec N))
    (bl : List Byte) : (e.withPorts fl cl ol bl).Sound := h

theorem Engine.Sound.raise (h : e.Sound) (c : Cause) : (e.raise c).Sound := fun hr =>
  have ⟨hrep, hcfg⟩ := h hr
  ⟨hrep.raise c, hcfg.raise c⟩

theorem Engine.Sound.resetNow (e : Engine N) : e.resetNow.Sound := by
  refine fun _ => ⟨⟨fun _ => rfl, by simp, by simp⟩, fun hv => ?_⟩
  simp at hv

/-- After a refusal nothing is claimed; otherwise the effect decides. -/
theorem Engine.Sound.perform {f : Engine N → Engine N} (h : e.Sound) (hf : e.Sound → (f e).Sound) :
    (e.perform f).Sound := by
  cases hr : e.refused with
  | true =>
    rw [Engine.perform_of_refused hr]
    intro hr'
    simp [hr] at hr'
  | false =>
    rw [Engine.perform_of_not_refused hr]
    exact hf h

/-- Every command keeps what the invariant says; the refused CONFIG ends what it says. -/
theorem Engine.Sound.effect (hN : 8 ≤ N) (h : e.Sound) (i : Instr) : (e.effect i).Sound := by
  rcases e.effect_shape i with ⟨c, hi⟩ | hi | ⟨d, hd, hi⟩ | ⟨hv, ch, c, v, hc, hi⟩ | ⟨v, hi⟩ <;>
    rw [hi] <;> intro hr
  · exact h.raise c hr
  · simp at hr
  · exact ⟨((h hr).1.configure d).respondOk 0, (e.configLegal_configure hd).respondOk 0⟩
  · obtain ⟨hrep, hcfg⟩ := h hr
    have hl : e.LegalConfig := hcfg hv
    exact ⟨(hrep.setChannel ch c).respondOk v, fun _ => hl.setChannel ch (hc hN hl)⟩
  · obtain ⟨hrep, hcfg⟩ := h hr
    exact ⟨hrep.respondOk v, hcfg.respondOk v⟩

theorem Engine.Sound.run1 (hN : 8 ≤ N) (h : e.Sound) (i : Instr) : (e.run1 i).Sound :=
  h.perform fun h => h.effect hN i

theorem Engine.Sound.next (hN : 8 ≤ N) (h : e.Sound) : e.next.Sound := by
  rcases e.next_cases with ⟨_, hs⟩ | ⟨_, hs | ⟨g, cl, ol, bl, _, hs⟩ | ⟨c, cl, ol, bl, hs⟩ | ⟨i, cl, ol, bl, hs⟩⟩ <;>
    rw [hs]
  · exact .resetNow e
  · exact h
  · exact h.withPorts (some g) cl ol bl
  · exact (h.withPorts none cl ol bl).perform fun h => h.raise c
  · exact (h.withPorts none cl ol bl).run1 hN i

theorem Engine.Inv.next (hN : 8 ≤ N) (h : e.Inv) : e.next.Inv := by
  obtain ⟨hlo, hhi, hfl, hs⟩ := Engine.inv_iff.mp h
  exact Engine.inv_iff.mpr
    ⟨e.next_nacc.symm ▸ hlo, e.next_nacc.symm ▸ hhi, Engine.next_flightLegal hfl, hs.next hN⟩

/-! ### Reset -/

@[simp] theorem Engine.reset_nacc (N nacc : Nat) : (Engine.reset N nacc).nacc = nacc :=
  length_unspecifiedChannels ..

theorem Engine.Sound.reset (N nacc : Nat) : (Engine.reset N nacc).Sound := by
  refine fun _ => ⟨⟨fun _ => rfl, by simp [Engine.reset], by simp [Engine.reset]⟩, fun hv => ?_⟩
  simp [Engine.reset] at hv

theorem State.resetOf_inv (n : StorageWidth) {nacc : Nat} (hlo : 1 ≤ nacc) (hhi : nacc ≤ 16) :
    (State.resetOf n nacc).Inv :=
  Engine.inv_iff.mpr
    ⟨(Engine.reset_nacc ..).symm ▸ hlo, (Engine.reset_nacc ..).symm ▸ hhi, Engine.flightLegal_of_none rfl,
      Engine.Sound.reset n.bits nacc⟩

/-! ### The obligations -/

/-- Settles O51: the number of channels, the command in flight and the two halves of the invariant are each kept. -/
theorem everyStepKeepsTheEngineWellFormed : Obligations.EveryStepKeepsTheEngineWellFormed := by
  rintro ⟨n, e⟩ t hinv ht
  rw [step_eq] at ht
  cases ht
  exact Engine.Inv.next n.eight_le_bits hinv

/-- Settles O50: a step is `Engine.next` at the same storage width. -/
theorem stepKeepsTheParameters : Obligations.StepKeepsTheParameters := by
  rintro ⟨n, e⟩ t ht
  rw [step_eq] at ht
  cases ht
  exact ⟨rfl, e.next_nacc⟩

/-- Settles O52: nothing is in flight, STATUS and the stream are clear, and CFG_VALID of 0 asks nothing of the registers. -/
theorem resetIsWellFormed : Obligations.ResetIsWellFormed :=
  ⟨fun n _ hlo hhi => State.resetOf_inv n hlo hhi, State.resetOf_inv _ (by decide) (by decide)⟩

end Sys2Proof.Machine

/-!
PROOFS. The state (spec/10_state.md): the STATUS word, what reset leaves, the response of every command, the command in flight, who
writes the descriptor and REFUSED, and that nothing unspecified is observed. The last is a simulation: `Engine.Alike` relates two
engines that differ at most in registers no CONFIG has written, and every command keeps it.
-/

namespace Sys2Proof.Machine

variable {N : Nat} {e : Engine N}

/-! ### The STATUS word -/

/-- Every bit of STATUS (spec/10_state.md R42). -/
theorem Engine.status_getLsbD (e : Engine N) (j : Nat) :
    e.status.getLsbD j =
      if j = 0 then e.cfgValid else if j = 1 then e.err else decide (4 ≤ j) && e.cause.getLsbD (j - 4) := by
  unfold Engine.status
  rw [BitVec.getLsbD_or, BitVec.getLsbD_or]
  by_cases h8 : j < 8
  · interval_cases j <;> simp
  · have hcause : e.cause.getLsbD (j - 4) = false := BitVec.getLsbD_of_ge _ _ (by omega)
    simp [show j ≠ 0 by omega, show j ≠ 1 by omega, show j - 1 ≠ 0 by omega, hcause]

theorem Engine.status_eq_zero (hv : e.cfgValid = false) (he : e.err = false) (hc : e.cause = 0) : e.status = 0 := by
  simp [Engine.status, hv, he, hc]

/-! ### The one response of a command -/

/-- The response is the last thing every shape of an effect appends. -/
theorem Engine.effect_responses (e : Engine N) (i : Instr) : ∃ r, (e.effect i).responses = e.responses ++ [r] := by
  rcases e.effect_shape i with ⟨_, h⟩ | h | ⟨_, _, h⟩ | ⟨_, _, _, _, _, h⟩ | ⟨_, h⟩ <;> rw [h] <;> exact ⟨_, rfl⟩

theorem Engine.perform_responses {f : Engine N → Engine N} (h : ∃ r, (f e).responses = e.responses ++ [r]) :
    ∃ r, (e.perform f).responses = e.responses ++ [r] := by
  unfold Engine.perform
  split
  · exact ⟨_, e.noMeaning_responses⟩
  · exact h

theorem Engine.run1_responses (e : Engine N) (i : Instr) : ∃ r, (e.run1 i).responses = e.responses ++ [r] :=
  Engine.perform_responses (e.effect_responses i)

/-- A header with its whole payload is answered once, malformed or not. -/
theorem Engine.next_responses_of_head {h : Header} {rest : List Header} (hr : e.resetLine = false) (hf : e.flight = none)
    (hc : e.commandLane = h :: rest) (h1 : payloadOperands h ≤ e.operandLane.length)
    (h2 : payloadBytes h ≤ e.byteLane.length) : ∃ r, e.next.responses = e.responses ++ [r] := by
  rcases next_of_head hr hf hc h1 h2 with ⟨c, _, h⟩ | ⟨i, _, h⟩ <;> rw [h]
  · exact Engine.perform_responses ⟨_, Engine.raise_responses _ c⟩
  · exact Engine.run1_responses _ i

/-! ### The command in flight -/

/-- Without the rest of its payload a command stays in flight (spec/70_reset_and_hazards.md R271). -/
theorem gather_of_short {f : Flight N}
    (h : f.operands.length + e.operandLane.length < payloadOperands f.header ∨
      f.bytes.length + e.byteLane.length < payloadBytes f.header) :
    e.gather f = .idle { e.drained f with flight := some (e.filled f) } := by
  have hdec : decode f.header (widenBeats (e.filled f).operands) (e.filled f).bytes = .incomplete := by
    rw [decode_incomplete_iff]
    simp only [widenBeats, Engine.filled, Flight.lacksOperands, Flight.lacksBytes, List.length_map, List.length_append,
      List.length_take]
    omega
  simp only [Engine.gather, hdec]

/-! ### REFUSED -/

theorem run1_config_invalid (hr : e.refused = false) {w : BitVec 8} (hw : w.toNat = 0 ∨ N < w.toNat) (r : Bool)
    (poly ini xorout : BitVec maxWidth) : e.run1 (.config w r poly ini xorout) = e.refuseInvalidWidth := by
  rw [Engine.run1_of_not_refused hr]
  simp only [Engine.effect, Engine.config, if_pos hw]

theorem Engine.perform_refused (h : e.refused = true) (f : Engine N → Engine N) : (e.perform f).refused = true := by
  rw [Engine.perform_of_refused h, Engine.noMeaning_refused, h]

/-- REFUSED is for good (spec/10_state.md R52). -/
theorem Engine.next_refused (h : e.refused = true) : e.next.refused = true := by
  rcases e.next_cases with ⟨_, hs⟩ | ⟨_, hs | ⟨_, _, _, _, _, hs⟩ | ⟨_, cl, ol, bl, hs⟩ | ⟨_, cl, ol, bl, hs⟩⟩ <;> rw [hs]
  · exact e.resetNow_refused.trans h
  · exact h
  · exact h
  · exact Engine.perform_refused (e := e.withPorts none cl ol bl) h _
  · exact Engine.perform_refused (e := e.withPorts none cl ol bl) h _

/-! ### Reset -/

theorem Engine.next_of_reset (h : e.resetLine = true) : e.next = e.resetNow := by
  rcases e.next_cases with ⟨_, hs⟩ | ⟨hr, _⟩
  · exact hs
  · simp [h] at hr

/-! ### The descriptor -/

/-- No effect but CONFIG's writes the descriptor (spec/10_state.md R35). -/
theorem Engine.effect_desc {i : Instr} (hi : ∀ w r poly ini xorout, i ≠ .config w r poly ini xorout) :
    (e.effect i).desc = e.desc := by
  rcases e.effect_cases i with ⟨_, h⟩ | ⟨w, r, p, q, x, rfl, _⟩ | ⟨w, r, p, q, x, rfl, _⟩ |
    ⟨_, _, _, _, ⟨_, h⟩ | ⟨_, _, h⟩ | ⟨_, _, _, _, _, h⟩ | ⟨_, h⟩⟩ | ⟨_, _, _, h⟩
  case inr.inl => exact absurd rfl (hi w r p q x)
  case inr.inr.inl => exact absurd rfl (hi w r p q x)
  all_goals rw [h]; rfl

/-! ### What is unspecified is not observed -/

/-- The engine with the registers that reset leaves unspecified replaced (spec/10_state.md R53). -/
def Engine.withRegisters (e : Engine N) (d : Descriptor N) (cs : List (Channel N)) : Engine N :=
  { e with desc := d, channels := cs }

theorem Engine.withRegisters_cfgValid (e : Engine N) (d : Descriptor N) (cs : List (Channel N)) :
    (e.withRegisters d cs).cfgValid = e.cfgValid := rfl

theorem Engine.withRegisters_refused (e : Engine N) (d : Descriptor N) (cs : List (Channel N)) :
    (e.withRegisters d cs).refused = e.refused := rfl

theorem Engine.withRegisters_nacc {cs : List (Channel N)} (hlen : cs.length = e.nacc) (d : Descriptor N) :
    (e.withRegisters d cs).nacc = e.nacc := hlen

/-- `b` differs from `a` at most in the registers reset leaves unspecified, and only while no CONFIG has completed. -/
inductive Engine.Alike (a : Engine N) : Engine N → Prop
  | same : a.Alike a
  | unconfigured (d : Descriptor N) (cs : List (Channel N)) (hv : a.cfgValid = false) (hlen : cs.length = a.nacc) :
    a.Alike (a.withRegisters d cs)

section

variable {a b : Engine N} {d : Descriptor N} {cs : List (Channel N)}

/-- What a host can read agrees, and after a CONFIG everything does. -/
theorem Engine.Alike.observations (h : a.Alike b) :
    a.responses = b.responses ∧ a.status = b.status ∧ a.refused = b.refused ∧ (a.cfgValid = true → a = b) := by
  cases h with
  | same => exact ⟨rfl, rfl, rfl, fun _ => rfl⟩
  | unconfigured d cs hv _ => exact ⟨rfl, rfl, rfl, fun hv' => by simp [hv] at hv'⟩

/-- What a refusal leaves depends on the number of channels only. -/
theorem Engine.noMeaning_withRegisters (hlen : cs.length = a.nacc) : (a.withRegisters d cs).noMeaning = a.noMeaning := by
  unfold Engine.noMeaning
  rw [Engine.withRegisters_nacc hlen]
  rfl

theorem Engine.refuseInvalidWidth_withRegisters (hlen : cs.length = a.nacc) :
    (a.withRegisters d cs).refuseInvalidWidth = a.refuseInvalidWidth := by
  unfold Engine.refuseInvalidWidth
  rw [Engine.withRegisters_nacc hlen]
  rfl

/-- CONFIG overwrites whatever the descriptor and the channels held (spec/40_descriptor.md R140). -/
theorem Engine.configure_withRegisters (hlen : cs.length = a.nacc) (d' : Descriptor N) :
    (a.withRegisters d cs).configure d' = a.configure d' := by
  have hmap : (cs.map fun _ => d'.freshChannel) = a.channels.map fun _ => d'.freshChannel := by
    rw [List.map_const', List.map_const', hlen]
    rfl
  unfold Engine.configure Engine.withRegisters
  rw [hmap]

theorem Engine.config_withRegisters (hlen : cs.length = a.nacc) (W : Nat) (r : Bool) (poly ini xorout : BitVec N) :
    (a.withRegisters d cs).config W r poly ini xorout = a.config W r poly ini xorout := by
  simp only [Engine.config, Engine.refuseInvalidWidth_withRegisters hlen, Engine.configure_withRegisters hlen]

theorem Engine.Alike.raise (hv : a.cfgValid = false) (hlen : cs.length = a.nacc) (c : Cause) :
    (a.raise c).Alike ((a.withRegisters d cs).raise c) :=
  .unconfigured d cs hv hlen

/-- While CFG_VALID is 0 a command on a channel is rejected before it reads the channel (spec/60_exceptions.md R237). -/
theorem Engine.Alike.withChannel (hv : a.cfgValid = false) (hlen : cs.length = a.nacc) (ch : BitVec 4)
    (k k' : Channel N → Engine N) : (a.withChannel ch k).Alike ((a.withRegisters d cs).withChannel ch k') := by
  have hn : (a.withRegisters d cs).nacc = a.nacc := Engine.withRegisters_nacc hlen d
  have hv' : (a.withRegisters d cs).cfgValid = false := (a.withRegisters_cfgValid d cs).trans hv
  rcases Nat.lt_or_ge ch.toNat a.nacc with h | h
  · rw [Engine.withChannel_of_not_valid h hv, Engine.withChannel_of_not_valid (hn.symm ▸ h) hv']
    exact .raise hv hlen .notConfigured
  · rw [Engine.withChannel_of_le h, Engine.withChannel_of_le (hn.symm ▸ h)]
    exact .raise hv hlen .badChannel

/-- CONFIG makes the two engines equal; every other command is rejected on both. -/
theorem Engine.Alike.effect (hv : a.cfgValid = false) (hlen : cs.length = a.nacc) (i : Instr) :
    (a.effect i).Alike ((a.withRegisters d cs).effect i) := by
  cases i with
  | config w r poly ini xorout =>
    simp only [Engine.effect, Engine.config_withRegisters hlen]
    exact .same
  | init ch => exact .withChannel hv hlen ch _ _
  | update ch data => exact .withChannel hv hlen ch _ _
  | updateBits ch bits k => exact .withChannel hv hlen ch _ _
  | finish ch => exact .withChannel hv hlen ch _ _
  | tableRead idx =>
    simp only [Engine.effect, Engine.tableRead]
    have hv' : (a.withRegisters d cs).cfgValid = false := (a.withRegisters_cfgValid d cs).trans hv
    rw [Engine.whenConfigured_of_not_valid hv, Engine.whenConfigured_of_not_valid hv']
    exact .raise hv hlen .notConfigured

theorem Engine.Alike.run1 (h : a.Alike b) (i : Instr) : (a.run1 i).Alike (b.run1 i) := by
  cases h with
  | same => exact .same
  | unconfigured d cs hv hlen =>
    have hrefused : (a.withRegisters d cs).refused = a.refused := a.withRegisters_refused d cs
    cases hr : a.refused with
    | true =>
      rw [Engine.run1_of_refused hr, Engine.run1_of_refused (hrefused.trans hr), Engine.noMeaning_withRegisters hlen]
      exact .same
    | false =>
      rw [Engine.run1_of_not_refused hr, Engine.run1_of_not_refused (hrefused.trans hr)]
      exact .effect hv hlen i

theorem Engine.Alike.runs (h : a.Alike b) (is : List Instr) : (a.runs is).Alike (b.runs is) := by
  induction is generalizing a b with
  | nil => exact h
  | cons i is ih => exact ih (h.run1 i)

end

/-! ### The obligations -/

/-- Settles O5: every command's effect ends in a response, and so does a rejection by the decoder. -/
theorem everyCommandAppendsOneResponse : Obligations.EveryCommandAppendsOneResponse := by
  refine ⟨fun n e i => ?_, fun n e h rest hr hf hc h1 h2 => ?_⟩
  · obtain ⟨r, h⟩ := e.run1_responses i
    exact ⟨_, r, exec_eq i n e, h⟩
  · obtain ⟨r, h⟩ := Engine.next_responses_of_head hr hf hc h1 h2
    exact ⟨_, r, step_eq n e, h⟩

/-- Settles O6: the decoder finds the payload incomplete, so the step only takes beats. -/
theorem inFlightChangesNoState : Obligations.InFlightChangesNoState := by
  intro n e f hr hf hshort
  rw [step_eq]
  simp only [Engine.next, receive_flight hr hf, gather_of_short hshort]
  rfl

/-- Settles O22: the CONFIG is `Engine.refuseInvalidWidth`. -/
theorem invalidWidthSetsRefusedAndNoError : Obligations.InvalidWidthSetsRefusedAndNoError := by
  intro n e w r poly ini xorout hr hw
  refine ⟨e.refuseInvalidWidth, _, ?_, rfl, rfl, rfl, rfl, e.refuseInvalidWidth_nacc, e.refuseInvalidWidth_responses⟩
  rw [exec_eq, run1_config_invalid hr hw]

/-- Settles O23: reset and every command keep REFUSED. -/
theorem refusedIsForGood : Obligations.RefusedIsForGood := by
  intro n e e' hs
  rw [step_eq] at hs
  cases hs
  exact Engine.next_refused

/-- Settles O49: the cases of a command's effect, and CONFIG's own descriptor. -/
theorem onlyConfigWritesTheDescriptor : Obligations.OnlyConfigWritesTheDescriptor := by
  intro n e i hr
  refine ⟨_, exec_eq i n e, fun hi => ?_, fun w r poly ini xorout hi h1 h2 => ?_⟩
  · rw [Engine.run1_of_not_refused hr, Engine.effect_desc hi]
  · rw [hi, run1_config hr h1 h2]
    rfl

/-- Settles O55: the two engines are alike, and every command keeps them so. -/
theorem unspecifiedValuesAreNeverObserved : Obligations.UnspecifiedValuesAreNeverObserved := by
  intro n e d channels is hv hlen
  have halike : (e.runs is).Alike ((e.withRegisters d channels).runs is) :=
    Engine.Alike.runs (.unconfigured d channels hv hlen) is
  exact ⟨_, _, execAll_eq is n e, execAll_eq is n _, halike.observations⟩

/-- Settles O17, bit by bit. -/
theorem statusWordLayout : Obligations.StatusWordLayout := by
  intro N e
  refine ⟨e.status_getLsbD 0, e.status_getLsbD 1, ?_, ?_, ?_⟩ <;> ext j hj <;>
    rw [BitVec.getElem_extractLsb', e.status_getLsbD, if_neg (by omega), if_neg (by omega)]
  · simp [BitVec.getLsbD_eq_getElem hj]
  · simp [show ¬ 4 ≤ 2 + j by omega]
  · simp [BitVec.getLsbD_of_ge e.cause (8 + j - 4) (by omega)]

/-- Settles O53: each register that the spec gives a reset value has it. -/
theorem resetValues : Obligations.ResetValues := fun n nacc =>
  ⟨Engine.status_eq_zero rfl rfl rfl, rfl, rfl, rfl, rfl, rfl, rfl, Engine.reset_nacc n.bits nacc⟩

/-- Settles O54: the step is `Engine.resetNow`, which leaves the lanes alone. -/
theorem resetAbandonsTheCommandInFlight : Obligations.ResetAbandonsTheCommandInFlight := by
  intro n e hr
  refine ⟨e.resetNow, ?_, rfl, rfl, Engine.status_eq_zero rfl rfl rfl, rfl, e.resetNow_nacc, rfl, rfl, rfl, rfl⟩
  rw [step_eq, Engine.next_of_reset hr]

end Sys2Proof.Machine

/-!
PROOFS. The channels (spec/20_memory.md): a command on one channel neither writes nor reads another. That it writes no other is
followed through the four commands that name a channel; that it reads no other is a simulation, where `Engine.AgreesAt` relates two
engines that differ at most in the other channels.
-/

namespace Sys2Proof.Machine

variable {N : Nat} {e f : Engine N} {ch : BitVec 4} {i : Instr}

/-! ### The commands that name a channel -/

/-- The four commands on a channel (spec/30_encoding.md R93). -/
theorem namesChannel_cases (h : namesChannel ch i = true) :
    i = .init ch ∨ (∃ data, i = .update ch data) ∨ (∃ bits k, i = .updateBits ch bits k) ∨ i = .finish ch := by
  cases i with
  | config => exact nomatch h
  | init c => exact .inl (eq_of_beq h ▸ rfl)
  | update c data => exact .inr (.inl ⟨data, eq_of_beq h ▸ rfl⟩)
  | updateBits c bits k => exact .inr (.inr (.inl ⟨bits, k, eq_of_beq h ▸ rfl⟩))
  | finish c => exact .inr (.inr (.inr (eq_of_beq h ▸ rfl)))
  | tableRead => exact nomatch h

/-! ### No other channel is written -/

theorem Engine.withChannel_channel? {k : Channel N → Engine N} (b : BitVec 4)
    (hk : ∀ c, (k c).channel? b = e.channel? b) : (e.withChannel ch k).channel? b = e.channel? b := by
  rcases e.withChannel_cases ch k with ⟨_, h⟩ | ⟨_, _, h⟩ | ⟨c, _, _, h⟩ <;> rw [h]
  · rfl
  · rfl
  · exact hk c

/-- A command on channel `ch` leaves every other channel as it was. -/
theorem Engine.effect_channel?_ne (hi : namesChannel ch i = true) {b : BitVec 4} (hb : b ≠ ch) :
    (e.effect i).channel? b = e.channel? b := by
  rcases namesChannel_cases hi with rfl | ⟨data, rfl⟩ | ⟨bits, k, rfl⟩ | rfl
  · exact Engine.withChannel_channel? b fun _ => Engine.channel?_setChannel_ne hb _
  · exact Engine.withChannel_channel? b fun _ => Engine.channel?_setChannel_ne hb _
  · refine Engine.withChannel_channel? b fun _ => ?_
    split
    · rfl
    · split
      · rfl
      · exact Engine.channel?_setChannel_ne hb _
  · exact Engine.withChannel_channel? b fun _ => rfl

theorem Engine.effect_tableRead_channels (e : Engine N) (idx : Byte) :
    (e.effect (.tableRead idx)).channels = e.channels := by
  simp only [Engine.effect, Engine.tableRead]
  cases hv : e.cfgValid with
  | false => rw [Engine.whenConfigured_of_not_valid hv, Engine.raise_channels]
  | true => rw [Engine.whenConfigured_of_valid hv, Engine.respondOk_channels]

/-! ### No other channel is read -/

/-- `f` differs from `e` at most in what its channels other than `ch` hold. -/
inductive Engine.AgreesAt (ch : BitVec 4) (e : Engine N) : Engine N → Prop
  | mk (cs : List (Channel N)) (hch : cs[ch.toNat]? = e.channel? ch) :
    e.AgreesAt ch { e with channels := cs }

/-- The two states agree but for the channels, and at channel `ch` too. -/
theorem Engine.AgreesAt.agreement (h : e.AgreesAt ch f) :
    f = { e with channels := f.channels } ∧ f.channel? ch = e.channel? ch := by
  obtain ⟨cs, hch⟩ := h
  exact ⟨rfl, hch⟩

theorem Engine.AgreesAt.desc (h : e.AgreesAt ch f) : f.desc = e.desc := by
  obtain ⟨cs, _⟩ := h
  rfl

theorem Engine.AgreesAt.cfgValid (h : e.AgreesAt ch f) : f.cfgValid = e.cfgValid := by
  obtain ⟨cs, _⟩ := h
  rfl

theorem Engine.AgreesAt.raise (h : e.AgreesAt ch f) (c : Cause) : (e.raise c).AgreesAt ch (f.raise c) := by
  obtain ⟨cs, hch⟩ := h
  exact .mk cs hch

theorem Engine.AgreesAt.respondOk (h : e.AgreesAt ch f) (v : BitVec N) : (e.respondOk v).AgreesAt ch (f.respondOk v) := by
  obtain ⟨cs, hch⟩ := h
  exact .mk cs hch

theorem Engine.AgreesAt.setChannel (h : e.AgreesAt ch f) (c : Channel N) :
    (e.setChannel ch c).AgreesAt ch (f.setChannel ch c) := by
  obtain ⟨cs, hch⟩ := h
  refine .mk (cs.set ch.toNat c) ?_
  unfold Engine.channel? Engine.setChannel
  rw [List.getElem?_set_self', List.getElem?_set_self', hch]
  rfl

theorem Engine.AgreesAt.storeAndFinish (h : e.AgreesAt ch f) (c : Channel N) :
    (e.storeAndFinish ch c).AgreesAt ch (f.storeAndFinish ch c) := by
  unfold Engine.storeAndFinish
  rw [h.desc]
  exact (h.setChannel c).respondOk _

/-- The two checks and the value handed on are the same on both engines. -/
theorem Engine.AgreesAt.withChannel (h : e.AgreesAt ch f) {k k' : Channel N → Engine N}
    (hk : ∀ c, (k c).AgreesAt ch (k' c)) : (e.withChannel ch k).AgreesAt ch (f.withChannel ch k') := by
  obtain ⟨_, hchannel⟩ := h.agreement
  rcases e.withChannel_cases ch k with ⟨hle, he⟩ | ⟨hlt, hv, he⟩ | ⟨c, hc, hv, he⟩ <;> rw [he]
  · have hnone : f.channel? ch = none := hchannel.trans (Engine.channel?_eq_none_iff.mpr hle)
    rw [Engine.withChannel_of_le (Engine.channel?_eq_none_iff.mp hnone)]
    exact h.raise .badChannel
  · obtain ⟨c, hc⟩ := Engine.channel?_isSome_of_lt hlt
    rw [Engine.withChannel_of_not_valid (Engine.lt_nacc_of_channel? (hchannel.trans hc)) (h.cfgValid.trans hv)]
    exact h.raise .notConfigured
  · rw [Engine.withChannel_of_some (hchannel.trans hc) (h.cfgValid.trans hv)]
    exact hk c

/-- A command on channel `ch` does the same whatever the other channels hold. -/
theorem Engine.AgreesAt.effect (h : e.AgreesAt ch f) (hi : namesChannel ch i = true) :
    (e.effect i).AgreesAt ch (f.effect i) := by
  rcases namesChannel_cases hi with rfl | ⟨data, rfl⟩ | ⟨bits, k, rfl⟩ | rfl <;>
    refine h.withChannel fun c => ?_ <;> rw [h.desc]
  · exact (h.setChannel _).respondOk 0
  · exact h.storeAndFinish _
  · split
    · exact h.raise .precondReflect
    · split
      · exact h.raise .precondOffset
      · exact h.storeAndFinish _
  · exact h.respondOk _

/-! ### The obligation -/

/-- Settles O48: a command on `a` stores at most in channel `a`, and engines that agree at `a` go on agreeing there. -/
theorem channelsAreIndependent : Obligations.ChannelsAreIndependent := by
  intro n e i a hr
  refine ⟨fun hi => ⟨_, exec_eq i n e, fun b hb => ?_, fun others _ ha => ⟨_, exec_eq i n _, ?_⟩⟩,
    fun idx => ⟨_, exec_eq _ n e, ?_⟩⟩
  · rw [Engine.run1_of_not_refused hr, Engine.effect_channel?_ne hi hb]
  · rw [Engine.run1_of_not_refused hr, Engine.run1_of_not_refused (e := { e with channels := others }) hr]
    exact (Engine.AgreesAt.effect (.mk others ha) hi).agreement
  · rw [Engine.run1_of_not_refused hr, Engine.effect_tableRead_channels]

end Sys2Proof.Machine

/-!
PROOFS. The encoding and the command port (spec/30_encoding.md). A field placed in a header is read back from its own place and adds
nothing elsewhere, and the encoder sets no reserved bit; so the words of a well-formed command decode to it. A step then runs what the
decoder reads, and takes the payload that OP calls for: a complete payload is decoded at once, and no command touches the ports.
-/

namespace Sys2Proof

/-! ### The fields of an encoded header -/

@[simp] theorem headerField_or (lo n : Nat) (a b : Header) :
    headerField lo n (a ||| b) = headerField lo n a ||| headerField lo n b := by
  ext j hj
  simp [headerField]

@[simp] theorem headerField_placeField_self {lo n : Nat} (hlo : lo + n ≤ 32) (v : BitVec n) :
    headerField lo n (placeField lo v) = v := by
  refine headerField_eq fun j hj => ?_
  rw [getLsbD_placeField]
  simp [show lo + j < 32 by omega]

@[simp] theorem headerField_placeField_disjoint {lo n lo' n' : Nat} (h : lo + n ≤ lo' ∨ lo' + n' ≤ lo) (v : BitVec n') :
    headerField lo n (placeField lo' v) = 0 := by
  refine headerField_eq fun j hj => ?_
  rw [getLsbD_placeField]
  rcases h with h | h
  · simp [show lo + j < lo' by omega]
  · simp [BitVec.getLsbD_of_ge v (lo + j - lo') (by omega)]

/-- REFLECT is a field of one bit. -/
theorem headerReflect_of_headerField {h : Header} {r : Bool} (hr : headerField 16 1 h = BitVec.ofBool r) :
    headerReflect h = r := by
  have hbit : (headerField 16 1 h).getLsbD 0 = headerReflect h := by simp [headerField, headerReflect]
  rw [← hbit, hr]
  simp

section

variable (ch : BitVec 4)

theorem headerByte_encode_config (w : BitVec 8) (r : Bool) (poly ini xorout : BitVec maxWidth) :
    headerByte (encode (.config w r poly ini xorout)).header = w := by
  simp [headerByte, encode]

theorem headerReflect_encode_config (w : BitVec 8) (r : Bool) (poly ini xorout : BitVec maxWidth) :
    headerReflect (encode (.config w r poly ini xorout)).header = r := by
  apply headerReflect_of_headerField
  simp [encode]

theorem headerCh_encode_init : headerCh (encode (.init ch)).header = ch := by
  simp [headerCh, encode]

theorem headerCh_encode_update (data : List Byte) : headerCh (encode (.update ch data)).header = ch := by
  simp [headerCh, encode]

theorem headerCh_encode_updateBits (bits : Byte) (k : BitVec 4) :
    headerCh (encode (.updateBits ch bits k)).header = ch := by
  simp [headerCh, encode]

theorem headerByte_encode_updateBits (bits : Byte) (k : BitVec 4) :
    headerByte (encode (.updateBits ch bits k)).header = bits := by
  simp [headerByte, encode]

theorem headerK_encode_updateBits (bits : Byte) (k : BitVec 4) :
    headerK (encode (.updateBits ch bits k)).header = k := by
  simp [headerK, encode]

theorem headerCh_encode_finish : headerCh (encode (.finish ch)).header = ch := by
  simp [headerCh, encode]

theorem headerByte_encode_tableRead (idx : Byte) : headerByte (encode (.tableRead idx)).header = idx := by
  simp [headerByte, encode]

end

/-! ### The reserved bits of an encoded header -/

/-- The reserved bits of each command's format (spec/30_encoding.md R94 to R98); UPDATE's has none. -/
def reservedOf : Instr → Header
  | .config _ _ _ _ _ => reservedC
  | .init _ => reservedH
  | .update _ _ => 0
  | .updateBits _ _ _ => reservedB
  | .finish _ => reservedH
  | .tableRead _ => reservedT

/-- Bits that a row of the table fixes to 0 are 0 in every header of the row. -/
theorem and_eq_zero_of_row {h mask pattern bits : Header} (hrow : h &&& mask = pattern) (hmask : mask &&& bits = bits)
    (hpattern : pattern &&& bits = 0) : h &&& bits = 0 := by
  rw [← hmask, ← BitVec.and_assoc, hrow, hpattern]

/-- The encoder sets no reserved bit. -/
theorem encode_header_and_reservedOf (i : Instr) : (encode i).header &&& reservedOf i = 0 := by
  cases i with
  | config w r poly ini xorout =>
    exact and_eq_zero_of_row (mask := 0xFFFE00FF) (pattern := 1) (bits := reservedC)
      (Laws.TableRow.config w r poly ini xorout) (by decide) (by decide)
  | init ch =>
    exact and_eq_zero_of_row (mask := 0xFFFFFF0F) (pattern := 2) (bits := reservedH)
      (Laws.TableRow.init ch) (by decide) (by decide)
  | update ch data => exact BitVec.and_zero
  | updateBits ch bits k =>
    exact and_eq_zero_of_row (mask := 0xFFF0000F) (pattern := 4) (bits := reservedB)
      (Laws.TableRow.updateBits ch bits k) (by decide) (by decide)
  | finish ch =>
    exact and_eq_zero_of_row (mask := 0xFFFFFF0F) (pattern := 5) (bits := reservedH)
      (Laws.TableRow.finish ch) (by decide) (by decide)
  | tableRead idx =>
    exact and_eq_zero_of_row (mask := 0xFFFF00FF) (pattern := 6) (bits := reservedT)
      (Laws.TableRow.tableRead idx) (by decide) (by decide)

theorem unlessReserved_encode (i j : Instr) : unlessReserved (reservedOf i) (encode i).header j = .command j :=
  if_pos (encode_header_and_reservedOf i)

/-! ### The decoder, opcode by opcode -/

section

variable {h : Header} (ops : List (BitVec maxWidth)) (bs : List Byte)

theorem decode_of_opConfig (hop : headerOp h = opConfig) (poly ini xorout : BitVec maxWidth) :
    decode h (poly :: ini :: xorout :: ops) bs =
      unlessReserved reservedC h (.config (headerByte h) (headerReflect h) poly ini xorout) := by
  unfold decode
  rw [hop]
  rfl

theorem decode_of_opInit (hop : headerOp h = opInit) :
    decode h ops bs = unlessReserved reservedH h (.init (headerCh h)) := by
  unfold decode
  rw [hop]
  rfl

theorem decode_of_opUpdate (hop : headerOp h = opUpdate) (hlen : bs.length = payloadBytes h) :
    decode h ops bs = .command (.update (headerCh h) bs) := by
  unfold decode
  rw [hop, ← hlen, if_neg (Nat.lt_irrefl _), List.take_length]
  rfl

theorem decode_of_opUpdateBits (hop : headerOp h = opUpdateBits) :
    decode h ops bs = unlessReserved reservedB h (.updateBits (headerCh h) (headerByte h) (headerK h)) := by
  unfold decode
  rw [hop]
  rfl

theorem decode_of_opFinish (hop : headerOp h = opFinish) :
    decode h ops bs = unlessReserved reservedH h (.finish (headerCh h)) := by
  unfold decode
  rw [hop]
  rfl

theorem decode_of_opTableRead (hop : headerOp h = opTableRead) :
    decode h ops bs = unlessReserved reservedT h (.tableRead (headerByte h)) := by
  unfold decode
  rw [hop]
  rfl

end

/-! ### Decoding what was encoded -/

/-- The decoder inverts the encoder (spec/30_encoding.md R94 to R102, R107). -/
theorem decode_encode {n : StorageWidth} {i : Instr} (hi : i.WellFormed n = true) :
    decode (encode i).header (encode i).operands (encode i).bytes = .command i := by
  have hop : headerOp (encode i).header = opOf i := headerOp_encode i
  cases i with
  | config w r poly ini xorout =>
    refine (decode_of_opConfig [] [] hop poly ini xorout).trans ?_
    rw [headerByte_encode_config, headerReflect_encode_config]
    exact unlessReserved_encode (.config w r poly ini xorout) _
  | init ch =>
    rw [decode_of_opInit _ _ hop, headerCh_encode_init]
    exact unlessReserved_encode (.init ch) _
  | update ch data =>
    rw [decode_of_opUpdate _ _ hop (payloadBytes_encode hi).symm, headerCh_encode_update]
    rfl
  | updateBits ch bits k =>
    rw [decode_of_opUpdateBits _ _ hop, headerCh_encode_updateBits, headerByte_encode_updateBits,
      headerK_encode_updateBits]
    exact unlessReserved_encode (.updateBits ch bits k) _
  | finish ch =>
    rw [decode_of_opFinish _ _ hop, headerCh_encode_finish]
    exact unlessReserved_encode (.finish ch) _
  | tableRead idx =>
    rw [decode_of_opTableRead _ _ hop, headerByte_encode_tableRead]
    exact unlessReserved_encode (.tableRead idx) _

/-- A well-formed command's operand beats come back from the `N`-bit lane (spec/30_encoding.md R100). -/
theorem widenBeats_laneValue {n : StorageWidth} {i : Instr} (hi : i.WellFormed n = true) :
    Machine.widenBeats ((encode i).operands.map (Machine.laneValue n.bits)) = (encode i).operands := by
  cases i with
  | config w r poly ini xorout =>
    simp only [Instr.WellFormed, Bool.and_eq_true] at hi
    obtain ⟨⟨hpoly, hini⟩, hxorout⟩ := hi
    simp [encode, Machine.widenBeats, setWidth_laneValue, hpoly, hini, hxorout]
  | init ch => rfl
  | update ch data => rfl
  | updateBits ch bits k => rfl
  | finish ch => rfl
  | tableRead idx => rfl

/-- Settles O1: the beats come back from the lane, and the decoder inverts the encoder. -/
theorem decodeOfEncodeIsTheCommand : Obligations.DecodeOfEncodeIsTheCommand := by
  intro n i hi
  rw [widenBeats_laneValue hi, decode_encode hi]

/-- One encoding, checked by the encoder, gives both directions. -/
theorem encode_and_decode {n : StorageWidth} {i : Instr} {ws : Words} (hi : i.WellFormed n = true) (hws : encode i = ws) :
    encode i = ws ∧ decode ws.header ws.operands ws.bytes = .command i := by
  subst hws
  exact ⟨rfl, decode_encode hi⟩

/-- Settles O2: the encoder gives the words of R109, and the decoder inverts it. -/
theorem workedEncodingsBothWays : Obligations.WorkedEncodingsBothWays :=
  ⟨encode_and_decode (n := .w32) (by decide) (by decide), encode_and_decode (n := .w32) (by decide) (by decide),
    encode_and_decode (n := .w32) (by decide) (by decide), encode_and_decode (n := .w32) (by decide) (by decide),
    encode_and_decode (n := .w32) (by decide) (by decide)⟩

namespace Machine

variable {N : Nat} {e : Engine N} {h : Header} {rest : List Header}

/-! ### The command at the head of the ports -/

/-- With nothing in flight, taking a command's words changes the lanes alone. -/
theorem Engine.withPorts_none (hf : e.flight = none) (cl : List Header) (ol : List (BitVec N)) (bl : List Byte) :
    e.withPorts none cl ol bl = { e with commandLane := cl, operandLane := ol, byteLane := bl } := by
  rw [← hf]

/-- A step runs the command that the decoder reads at the head of the ports (spec/70_reset_and_hazards.md R270). -/
theorem Engine.next_of_command {i : Instr} (hr : e.resetLine = false) (hf : e.flight = none)
    (hc : e.commandLane = h :: rest)
    (hd : decode h (widenBeats (e.operandLane.take (payloadOperands h))) (e.byteLane.take (payloadBytes h)) = .command i) :
    e.next =
      (e.withPorts none rest (e.operandLane.drop (payloadOperands h)) (e.byteLane.drop (payloadBytes h))).run1 i := by
  simp only [Engine.next, receive_head hr hf hc, gather_new, hd]

/-- A step runs a command that is presented to it, and leaves the engine's ports as they were. -/
theorem Engine.next_present {ops : List (BitVec N)} {bs : List Byte} {i : Instr} (hr : e.resetLine = false)
    (hf : e.flight = none) (hops : payloadOperands h = ops.length) (hbs : payloadBytes h = bs.length)
    (hd : decode h (widenBeats ops) bs = .command i) : (e.present h ops bs).next = e.run1 i := by
  have hnext := Engine.next_of_command (e := e.present h ops bs) (rest := e.commandLane) rfl rfl rfl
    (by simpa [hops, hbs] using hd)
  have htaken : (e.present h ops bs).withPorts none e.commandLane e.operandLane e.byteLane = e := by
    simp only [Engine.present, ← hr, ← hf]
  simpa [hops, hbs, htaken] using hnext

theorem Engine.next_presentInstr {n : StorageWidth} {e : Engine n.bits} {i : Instr} (hi : i.WellFormed n = true)
    (hr : e.resetLine = false) (hf : e.flight = none) : (e.presentInstr i).next = e.run1 i :=
  Engine.next_present hr hf ((payloadOperands_encode i).trans (List.length_map _).symm) (payloadBytes_encode hi)
    (decodeOfEncodeIsTheCommand n i hi)

/-- Settles O3: what the decoder reads is run, and a presented command is what the decoder reads. -/
theorem stepRunsTheDecodedCommand : Obligations.StepRunsTheDecodedCommand := by
  refine ⟨fun n e h rest i hr hf hc hd => ?_, fun n e i hi hr hf => ?_⟩
  · rw [step_eq, exec_eq, Engine.next_of_command hr hf hc hd, Engine.withPorts_none hf]
  · rw [step_eq, exec_eq, Engine.next_presentInstr hi hr hf]

/-! ### The payload -/

/-- What stands on the ports: the command in flight and the lanes. -/
def Engine.ports (e : Engine N) : Option (Flight N) × List Header × List (BitVec N) × List Byte :=
  (e.flight, e.commandLane, e.operandLane, e.byteLane)

theorem Engine.perform_ports {f : Engine N → Engine N} (h : (f e).ports = e.ports) : (e.perform f).ports = e.ports := by
  unfold Engine.perform
  split
  · rfl
  · exact h

/-- No command touches the ports, accepted or rejected. -/
theorem Engine.effect_ports (e : Engine N) (i : Instr) : (e.effect i).ports = e.ports := by
  rcases e.effect_shape i with ⟨_, h⟩ | h | ⟨_, _, h⟩ | ⟨_, _, _, _, _, h⟩ | ⟨_, h⟩ <;> rw [h] <;> rfl

theorem Engine.run1_ports (e : Engine N) (i : Instr) : (e.run1 i).ports = e.ports :=
  Engine.perform_ports (e.effect_ports i)

/-- A header whose payload is complete is taken with the whole of it, whatever becomes of the command. -/
theorem Engine.next_ports_of_head (hr : e.resetLine = false) (hf : e.flight = none) (hc : e.commandLane = h :: rest)
    (hops : payloadOperands h ≤ e.operandLane.length) (hbytes : payloadBytes h ≤ e.byteLane.length) :
    e.next.ports = (none, rest, e.operandLane.drop (payloadOperands h), e.byteLane.drop (payloadBytes h)) := by
  rcases next_of_head hr hf hc hops hbytes with ⟨c, _, hnext⟩ | ⟨i, _, hnext⟩ <;> rw [hnext]
  · exact Engine.perform_ports rfl
  · exact Engine.run1_ports _ i

/-- Settles O4: the step takes as many beats and bytes as the header's OP calls for. -/
theorem payloadLengthDependsOnOpAlone : Obligations.PayloadLengthDependsOnOpAlone := by
  intro n e h rest beats beats' bytes bytes' hr hf hc hol hbeats hbl hbytes
  have hops : payloadOperands h = beats.length := hbeats.symm
  have hlen : payloadBytes h = bytes.length := hbytes.symm
  have hports := Engine.next_ports_of_head hr hf hc (by simp [hops, hol]) (by simp [hlen, hbl])
  rw [hops, hlen, hol, hbl, List.drop_left, List.drop_left] at hports
  simp only [Engine.ports, Prod.mk.injEq] at hports
  obtain ⟨hflight, hcommand, hoperand, hbyte⟩ := hports
  exact ⟨e.next, step_eq n e, hcommand, hoperand, hbyte, hflight⟩

/-! ### A channel that does not exist -/

/-- Settles O13: each of the four commands looks its channel up before anything else. -/
theorem channelAboveNaccIsRejected : Obligations.ChannelAboveNaccIsRejected := by
  intro n e ch hr hch
  have hexec {i : Instr} {k : Channel n.bits → Engine n.bits} (hi : e.effect i = e.withChannel ch k) :
      exec i ⟨n, e⟩ = .next ⟨n, e.raise .badChannel⟩ := by
    rw [exec_eq, Engine.run1_of_not_refused hr, hi, Engine.withChannel_of_le hch]
  exact ⟨hexec rfl, fun _ => hexec rfl, fun _ _ => hexec rfl, hexec rfl⟩

end Machine

end Sys2Proof

/-!
PROOFS. What CONFIG leaves (spec/40_descriptor.md): the descriptor and the table that it writes over whatever was there, the corner cases
of the transforms, and the laws of the table. Each law of the table is one of `gen`, carried over by `entry_build`; that the two bit
orders mirror each other is proved of one step and followed through the steps of GEN.
-/

namespace Sys2Proof.Machine

variable {N W : Nat}

/-! ### GEN, written out -/

/-- Reflected GEN is the loop of spec/40_descriptor.md R138. -/
theorem gen_true_eq_iterate (p : BitVec N) (i : Byte) :
    gen true p i =
      (fun v : BitVec N => if v.getLsbD 0 = true then (v >>> 1) ^^^ p else v >>> 1)^[8] (i.setWidth N) :=
  bitSteps_eq_iterate true p 8 _

/-- Non-reflected GEN is the loop of spec/40_descriptor.md R139. -/
theorem gen_false_eq_iterate (p : BitVec N) (i : Byte) :
    gen false p i =
      (fun v : BitVec N => if v.getLsbD (N - 1) = true then (v <<< 1) ^^^ p else v <<< 1)^[8]
        (i.setWidth N <<< (N - 8)) :=
  bitSteps_eq_iterate false p 8 _

/-! ### The transforms -/

theorem setWidth_congr {u v : BitVec N} (h : ∀ j < W, u.getLsbD j = v.getLsbD j) : u.setWidth W = v.setWidth W := by
  refine BitVec.eq_of_getLsbD_eq fun j hj => ?_
  simp [hj, h j hj]

/-- The POLY transform reads the low `W` bits of `poly` (spec/40_descriptor.md R133). -/
theorem transformPoly_congr (hW : W ≤ N) {p q : BitVec N} (h : p.setWidth W = q.setWidth W) (r : Bool) :
    transformPoly r (N - W) p = transformPoly r (N - W) q := by
  cases r with
  | false => rw [transformPoly_false_eq hW, transformPoly_false_eq hW, h]
  | true => rw [transformPoly_true_eq hW, transformPoly_true_eq hW, h]

/-- The reflected INIT transform puts the reversed low `W` bits of `init` in the low bits (spec/40_descriptor.md R134). -/
theorem transformInit_true_eq (hW : W ≤ N) (ini : BitVec N) :
    transformInit true (N - W) ini = ((ini.setWidth W).reverse).setWidth N :=
  sees_fresh hW true 0 ini 0

theorem transformPoly_zero (r : Bool) (off : Nat) : transformPoly r off 0#N = 0#N := by
  cases r with
  | false => simp [transformPoly]
  | true =>
    refine BitVec.eq_of_getLsbD_eq fun j _ => ?_
    simp [transformPoly, rev, BitVec.getLsbD_reverse]

/-! ### W = N and W = 1 (spec/40_descriptor.md R142(a), (b)) -/

theorem build_full_poly (r : Bool) (poly ini xorout : BitVec N) :
    (Descriptor.build N r poly ini xorout).poly = if r then poly.reverse else poly := by
  simp [Descriptor.build, transformPoly, rev]

theorem reverse_width_one (v : BitVec 1) : v.reverse = v := by
  refine BitVec.eq_of_getLsbD_eq fun j hj => ?_
  obtain rfl : j = 0 := by omega
  rw [BitVec.getLsbD_reverse, BitVec.getMsbD_eq_getLsbD]
  rfl

theorem build_one_poly_false (hN : 1 ≤ N) (poly ini xorout : BitVec N) :
    (Descriptor.build 1 false poly ini xorout).poly = (BitVec.ofBool (poly.getLsbD 0)).setWidth N <<< (N - 1) := by
  rw [← BitVec.setWidth_one]
  exact transformPoly_false_eq hN poly

theorem build_one_poly_true (hN : 1 ≤ N) (poly ini xorout : BitVec N) :
    (Descriptor.build 1 true poly ini xorout).poly = (BitVec.ofBool (poly.getLsbD 0)).setWidth N := by
  rw [← BitVec.setWidth_one, ← reverse_width_one (poly.setWidth 1)]
  exact transformPoly_true_eq hN poly

/-! ### POLY of 0 (spec/40_descriptor.md R142(c)) -/

/-- Eight shifts push the whole byte out. -/
theorem gen_zero_poly (hN : 8 ≤ N) (r : Bool) (i : Byte) : gen r 0#N i = 0#N := by
  cases r with
  | false =>
    have hshift : gen false 0#N i = (i.setWidth N <<< (N - 8)) <<< 8 := bitSteps_zero_poly_false 8 _
    rw [hshift, ← BitVec.shiftLeft_add, BitVec.shiftLeft_eq_zero (by omega)]
  | true =>
    have hshift : gen true 0#N i = i.setWidth N >>> 8 := bitSteps_zero_poly_true 8 _
    rw [hshift]
    refine BitVec.eq_of_getLsbD_eq fun j _ => ?_
    simp

theorem entry_build_zero_poly (hN : 8 ≤ N) (r : Bool) (ini xorout : BitVec N) (i : Byte) :
    (Descriptor.build W r 0 ini xorout).entry i = 0 := by
  rw [entry_build]
  exact (congrArg (gen r · i) (transformPoly_zero r _)).trans (gen_zero_poly hN r i)

/-! ### Bits at `W` and above (spec/40_descriptor.md R142(d), (f)) -/

section

variable {poly poly' ini ini' : BitVec N}

theorem build_poly_congr (hW : W ≤ N) (h : ∀ j < W, poly'.getLsbD j = poly.getLsbD j) (r : Bool) (ini xorout : BitVec N) :
    (Descriptor.build W r poly' ini xorout).poly = (Descriptor.build W r poly ini xorout).poly :=
  transformPoly_congr hW (setWidth_congr h) r

/-- The table is generated from POLY alone. -/
theorem build_table_congr (hW : W ≤ N) (h : ∀ j < W, poly'.getLsbD j = poly.getLsbD j) (r : Bool) (ini xorout : BitVec N) :
    (Descriptor.build W r poly' ini xorout).table = (Descriptor.build W r poly ini xorout).table :=
  congrArg (genTable r) (build_poly_congr hW h r ini xorout)

theorem build_init_congr (hW : W ≤ N) (h : ∀ j < W, ini'.getLsbD j = ini.getLsbD j) (poly xorout : BitVec N) :
    (Descriptor.build W true poly ini' xorout).init = (Descriptor.build W true poly ini xorout).init := by
  simp only [Descriptor.build, transformInit_true_eq hW, setWidth_congr h]

/-- The first alignment discards them, too. -/
theorem shiftLeft_offset_congr (hW : W ≤ N) (h : ∀ j < W, ini'.getLsbD j = ini.getLsbD j) :
    ini' <<< (N - W) = ini <<< (N - W) :=
  transformPoly_congr hW (setWidth_congr h) false

end

/-! ### Reflection (spec/40_descriptor.md R145) -/

theorem rev_xor (u v : BitVec N) : rev (u ^^^ v) = rev u ^^^ rev v := by
  refine BitVec.eq_of_getLsbD_eq fun j hj => ?_
  simp [rev, BitVec.getLsbD_reverse]

theorem rev_rev (v : BitVec N) : rev (rev v) = v := BitVec.reverse_reverse_eq

theorem rev_shiftLeft (v : BitVec N) (k : Nat) : rev (v <<< k) = rev v >>> k := by
  refine BitVec.eq_of_getLsbD_eq fun j hj => ?_
  simp [rev, BitVec.getLsbD_reverse, BitVec.getMsbD_shiftLeft, Nat.add_comm]

/-- Bit reversal turns the left shift into the right shift and the top bit into the low bit. -/
theorem rev_bitStep (hN : 1 ≤ N) (p v : BitVec N) : rev (bitStep false p v) = bitStep true (rev p) (rev v) := by
  have hbit : (rev v).getLsbD 0 = v.getLsbD (N - 1) := by
    rw [rev, BitVec.getLsbD_reverse, BitVec.getMsbD_eq_getLsbD]
    simp [show 0 < N by omega]
  simp only [bitStep, bitStepR, bitStepNR, Bool.false_eq_true, if_false, if_true, hbit]
  split
  · rw [rev_xor, rev_shiftLeft]
  · rw [rev_shiftLeft]

theorem rev_bitSteps (hN : 1 ≤ N) (p : BitVec N) (k : Nat) (v : BitVec N) :
    rev (bitSteps false p k v) = bitSteps true (rev p) k (rev v) := by
  induction k generalizing v with
  | zero => rfl
  | succ k ih => rw [bitSteps_succ_apply, bitSteps_succ_apply, ih, rev_bitStep hN]

/-- The reversed byte in the top byte is the byte in the low byte, reversed. -/
theorem rev_inTopByte_reverse (hN : 8 ≤ N) (i : Byte) : rev (inTopByte N i.reverse) = inLowByte N i := by
  refine BitVec.eq_of_getLsbD_eq fun j hj => ?_
  rw [rev, BitVec.getLsbD_reverse, BitVec.getMsbD_eq_getLsbD, inTopByte, inLowByte, BitVec.getLsbD_shiftLeft,
    BitVec.getLsbD_setWidth, BitVec.getLsbD_setWidth, BitVec.getLsbD_reverse, BitVec.getMsbD_eq_getLsbD]
  by_cases h8 : j < 8
  · have hsub : N - 1 - j - (N - 8) = 7 - j := by omega
    simp [hj, hsub, show N - 1 - j < N by omega, show ¬ N - 1 - j < N - 8 by omega, show 7 - j < N by omega,
      show 7 - j < 8 by omega, show 7 - (7 - j) = j by omega]
  · simp [show N - 1 - j < N - 8 by omega, BitVec.getLsbD_of_ge i j (by omega)]

theorem rev_gen_reverse (hN : 8 ≤ N) (p : BitVec N) (i : Byte) : rev (gen false p i.reverse) = gen true (rev p) i := by
  have hplace : rev (placeByte N false i.reverse) = placeByte N true i := rev_inTopByte_reverse hN i
  rw [gen, rev_bitSteps (by omega), hplace, gen]

/-! ### Single bits (spec/40_descriptor.md R144) -/

theorem placeByte_false_one (N : Nat) : placeByte N false 0x01 = BitVec.twoPow N (N - 8) := by
  simp [placeByte, inTopByte, BitVec.twoPow_eq, BitVec.setWidth_ofNat_one_eq_ofNat_one_of_lt]

theorem twoPow_shiftLeft (i k : Nat) : BitVec.twoPow N i <<< k = BitVec.twoPow N (i + k) := by
  rw [BitVec.twoPow_eq, BitVec.twoPow_eq, BitVec.shiftLeft_add]

/-- A step that finds the top bit alone leaves POLY. -/
theorem bitStep_false_top (hN : 1 ≤ N) (p : BitVec N) : bitStep false p (BitVec.twoPow N (N - 1)) = p := by
  have hbit : (BitVec.twoPow N (N - 1)).getLsbD (N - 1) = true := by
    simp [BitVec.getLsbD_twoPow]
    omega
  have hout : BitVec.twoPow N (N - 1) <<< 1 = 0#N := by
    rw [twoPow_shiftLeft, BitVec.twoPow_eq, BitVec.shiftLeft_eq_zero (by omega)]
  simp [bitStep, bitStepNR, hbit, hout]

/-- Seven steps shift the bit to the top, and the eighth XORs POLY in. -/
theorem gen_false_one (hN : 8 ≤ N) (p : BitVec N) : gen false p 0x01 = p := by
  have htop : bitSteps false p 7 (BitVec.twoPow N (N - 8)) = BitVec.twoPow N (N - 1) := by
    rw [bitSteps_false_of_top_zero, twoPow_shiftLeft, show N - 8 + 7 = N - 1 by omega]
    intro j hj
    simp [BitVec.getLsbD_twoPow]
    omega
  calc gen false p 0x01
      = bitSteps false p 1 (bitSteps false p 7 (BitVec.twoPow N (N - 8))) := by
        rw [gen, placeByte_false_one, bitSteps_add false p 7 1]
    _ = bitStep false p (BitVec.twoPow N (N - 1)) := by rw [htop]; rfl
    _ = p := bitStep_false_top (by omega) p

/-- The mirror image of `gen_false_one`. -/
theorem gen_true_top (hN : 8 ≤ N) (p : BitVec N) : gen true p 0x80 = p := by
  have hbyte : (0x80 : Byte).reverse = 0x01 := by decide
  rw [← rev_rev p, ← rev_gen_reverse hN, hbyte, gen_false_one hN]

/-! ### CONFIG on the engine -/

/-- Every channel is loaded afresh, so only how many there are matters. -/
theorem Engine.configure_channels_eq_replicate (e : Engine N) (d : Descriptor N) :
    (e.configure d).channels = List.replicate e.nacc d.freshChannel :=
  List.map_const' ..

/-! ### The obligations -/

/-- Settles O19: CONFIG completes with the descriptor it builds, and loads every channel from the new INIT. -/
theorem configWritesDescriptorAndChannels : Obligations.ConfigWritesDescriptorAndChannels := by
  intro n e w r poly ini xorout hr h1 h2 p q newPoly newInit
  refine ⟨genTable r newPoly, ?_⟩
  rw [exec_eq, run1_config hr h1 h2, Engine.respondOk, Engine.respond, Engine.configure_channels_eq_replicate]
  rfl

/-- Settles O20: the table is `genTable` of the POLY that stands beside it. -/
theorem configFillsTheTable : Obligations.ConfigFillsTheTable := by
  intro n e w r poly ini xorout hr h1 h2
  refine ⟨_, exec_eq _ n e, fun i => ?_⟩
  rw [run1_config hr h1 h2]
  have hentry : (Descriptor.build w.toNat r (laneValue n.bits poly) (laneValue n.bits ini)
      (laneValue n.bits xorout)).entry i = gen r (transformPoly r (n.bits - w.toNat) (laneValue n.bits poly)) i :=
    entry_build ..
  constructor
  · rintro rfl
    exact hentry.trans (gen_true_eq_iterate _ i)
  · rintro rfl
    exact hentry.trans (gen_false_eq_iterate _ i)

/-- Settles O21: nothing that CONFIG writes reads the engine, but for the number of its channels. -/
theorem configDiscardsWhatWasThere : Obligations.ConfigDiscardsWhatWasThere := by
  intro n e₁ e₂ w r poly ini xorout hr₁ hr₂ hnacc h1 h2
  refine ⟨_, _, exec_eq _ n e₁, exec_eq _ n e₂, ?_⟩
  rw [run1_config hr₁ h1 h2, run1_config hr₂ h1 h2]
  rw [Engine.respondOk_channels, Engine.respondOk_channels, Engine.configure_channels_eq_replicate,
    Engine.configure_channels_eq_replicate, hnacc]
  exact ⟨rfl, rfl, rfl, rfl, fun c hc => List.eq_of_mem_replicate hc⟩

/-- Settles O24, corner by corner. -/
theorem configCornerCases : Obligations.ConfigCornerCases := by
  intro n W r poly ini xorout h1 hW
  have hN : 8 ≤ n.bits := n.eight_le_bits
  refine ⟨Nat.sub_self _, build_full_poly false .., build_full_poly true .., rfl, build_one_poly_false (by omega) ..,
    build_one_poly_true (by omega) .., fun b crc => ?_, fun poly' ini' hpoly hini => ?_, rfl, fun b => ?_⟩
  · refine ⟨entry_build_zero_poly hN .., ?_, ?_⟩
    · rw [Descriptor.byteStepR, entry_build_zero_poly hN]
      exact BitVec.xor_zero
    · rw [Descriptor.byteStepNR, entry_build_zero_poly hN]
      exact BitVec.xor_zero
  · exact ⟨build_poly_congr hW hpoly .., build_table_congr hW hpoly .., build_init_congr hW hini .., rfl,
      shiftLeft_offset_congr hW hini⟩
  · simp [inTopByte]

/-- Settles O25: GEN is linear. -/
theorem tableIsLinear : Obligations.TableIsLinear := by
  intro n W r poly ini xorout a b d
  refine ⟨?_, ?_⟩
  · rw [entry_build, gen_zero]
  · rw [entry_build, entry_build, entry_build, gen_xor]

/-- Settles O26: the single bit reaches the tested end on the last of the eight steps. -/
theorem singleBitEntriesArePoly : Obligations.SingleBitEntriesArePoly := by
  intro n W poly ini xorout
  rw [entry_build, entry_build, gen_false_one n.eight_le_bits, gen_true_top n.eight_le_bits]
  exact ⟨rfl, rfl⟩

/-- Settles O27: GEN's steps mirror each other, and the reflected POLY is the reversed one. -/
theorem tablesAreReflections : Obligations.TablesAreReflections := by
  intro n W poly ini₁ ini₂ xorout₁ xorout₂ i
  rw [entry_build, entry_build]
  exact (rev_gen_reverse n.eight_le_bits _ i).symm

/-- Settles O28: the steps only shift where the transformed POLY is 0, and eight shifts push the byte out. -/
theorem tableEntriesAreInRange : Obligations.TableEntriesAreInRange := by
  intro n W poly ini xorout i h1 hW
  rw [entry_build, entry_build]
  refine ⟨(toNat_lt_iff_high W _).mpr fun j hj => ?_, fun j hj => ?_⟩
  · exact gen_true_lt (fun _ => transformPoly_true_high poly) i hj
  · exact gen_false_low (by omega) (fun _ => transformPoly_false_low _ poly) i hj

/-- Settles O35: a byte step is eight bit steps, and its table read is GEN. -/
theorem byteStepIsEightBitSteps : Obligations.ByteStepIsEightBitSteps := by
  intro n d crc b htable
  refine ⟨fun hr => ?_, fun hr => ?_⟩ <;> rw [hr] at htable
  · rw [Descriptor.byteStepNR, entry_of_table htable, ← bitSteps_byteNR n.eight_le_bits, bitSteps_eq_iterate]
    rfl
  · rw [Descriptor.byteStepR, entry_of_table htable, ← bitSteps_byteR, bitSteps_eq_iterate]
    rfl

end Sys2Proof.Machine

/-!
PROOFS. One message on one channel (spec/42_update_bits.md R188, spec/43_init_finish.md R205, R206). `Descriptor.serve` says what a
command on a channel makes of the channel and what it responds; `Engine.run1_serve` ties it to the engine, so that what follows a CONFIG
or an INIT on a channel depends on nothing but the descriptor and the commands.
-/

namespace Sys2Proof.Machine

variable {N W : Nat} {e e' e'' f : Engine N} {ch : BitVec 4} {c c' c'' : Channel N} {i : Instr} {d : Descriptor N}
  {rs rs' : List (Response N)}

/-! ### Answers on one channel -/

/-- `e'` is `e` after commands on channel `ch` that leave `c` there and append the responses `rs`; ERR is as it was if all were accepted. -/
structure Engine.Answered (e : Engine N) (ch : BitVec 4) (c : Channel N) (rs : List (Response N)) (e' : Engine N) : Prop where
  ready : e'.Ready
  desc : e'.desc = e.desc
  channel : e'.channel? ch = some c
  responses : e'.responses = e.responses ++ rs
  err : (∀ r ∈ rs, r.code = codeOk) → e'.err = e.err

theorem Engine.Answered.nil (h : e.Ready) (hc : e.channel? ch = some c) : e.Answered ch c [] e :=
  ⟨h, rfl, hc, (List.append_nil _).symm, fun _ => rfl⟩

theorem Engine.Answered.trans (h : e.Answered ch c rs e') (h' : e'.Answered ch c' rs' e'') :
    e.Answered ch c' (rs ++ rs') e'' where
  ready := h'.ready
  desc := h'.desc.trans h.desc
  channel := h'.channel
  responses := by rw [h'.responses, h.responses, List.append_assoc]
  err hok := (h'.err fun r hr => hok r (List.mem_append_right _ hr)).trans
    (h.err fun r hr => hok r (List.mem_append_left _ hr))

theorem Engine.Answered.report (h : e.Ready) (hc : e.channel? ch = some c) (v : BitVec N) :
    e.Answered ch c [⟨codeOk, v⟩] (e.respondOk v) :=
  ⟨h, rfl, hc, rfl, fun _ => rfl⟩

theorem Engine.Answered.store (h : e.Ready) (hc : e.channel? ch = some c) (c' : Channel N) (v : BitVec N) :
    e.Answered ch c' [⟨codeOk, v⟩] ((e.setChannel ch c').respondOk v) :=
  ⟨h, rfl, Engine.channel?_setChannel_self (Engine.lt_nacc_of_channel? hc) c', rfl, fun _ => rfl⟩

theorem causeCode_ne_codeOk (x : Cause) : causeCode x ≠ codeOk := by
  cases x <;> decide

theorem Engine.Answered.reject (h : e.Ready) (hc : e.channel? ch = some c) (x : Cause) :
    e.Answered ch c [⟨causeCode x, 0⟩] (e.raise x) :=
  ⟨h, rfl, hc, rfl, fun hok => absurd (hok _ (List.mem_singleton.mpr rfl)) (causeCode_ne_codeOk x)⟩

/-! ### What a command makes of its channel -/

/-- The channel after a command on it, and the response, on an engine that is Ready (`Engine.run1_serve`). The two commands that name
no channel serve none: what stands for them is never used. -/
def Descriptor.serve (d : Descriptor N) (c : Channel N) : Instr → Channel N × Response N
  | .init _ => (d.freshChannel, ⟨codeOk, 0⟩)
  | .update _ data => (d.feedBytes c data, ⟨codeOk, d.fin (d.feedBytes c data)⟩)
  | .updateBits _ bits k =>
    if d.reflect then (c, ⟨causeCode .precondReflect, 0⟩)
    else if 8 ≤ k.toNat then (c, ⟨causeCode .precondOffset, 0⟩)
    else (d.feedBits c bits k.toNat, ⟨codeOk, d.fin (d.feedBits c bits k.toNat)⟩)
  | .finish _ => (c, ⟨codeOk, d.fin c⟩)
  | .config _ _ _ _ _ => (c, ⟨codeOk, 0⟩)
  | .tableRead _ => (c, ⟨codeOk, 0⟩)

/-- UPDATE_BITS where its preconditions hold (spec/42_update_bits.md R181). -/
theorem Descriptor.serve_updateBits (hr : d.reflect = false) (c : Channel N) (ch : BitVec 4) (bits : Byte) {k : BitVec 4}
    (hk : k.toNat < 8) : d.serve c (.updateBits ch bits k) =
      (d.feedBits c bits k.toNat, ⟨codeOk, d.fin (d.feedBits c bits k.toNat)⟩) := by
  simp only [Descriptor.serve, hr, Bool.false_eq_true, if_false, if_neg (Nat.not_le.mpr hk)]

/-- The channel after a sequence of commands on it, and the responses. -/
def Descriptor.serveAll (d : Descriptor N) : Channel N → List Instr → Channel N × List (Response N)
  | c, [] => (c, [])
  | c, i :: is =>
    ((d.serveAll (d.serve c i).1 is).1, (d.serve c i).2 :: (d.serveAll (d.serve c i).1 is).2)

/-- What a command on a channel does on the engine. -/
theorem Engine.run1_serve (h : e.Ready) (hc : e.channel? ch = some c) (hi : namesChannel ch i = true) :
    e.Answered ch (e.desc.serve c i).1 [(e.desc.serve c i).2] (e.run1 i) := by
  rcases namesChannel_cases hi with rfl | ⟨data, rfl⟩ | ⟨bits, k, rfl⟩ | rfl
  · rw [run1_init h hc]
    exact .store h hc _ 0
  · rw [run1_update h hc]
    exact .store h hc _ _
  · have hrun : e.run1 (.updateBits ch bits k) = _ :=
      (Engine.run1_of_not_refused h.1 _).trans (Engine.withChannel_of_some hc h.2)
    rw [hrun, Descriptor.serve]
    split
    · exact .reject h hc .precondReflect
    · split
      · exact .reject h hc .precondOffset
      · exact .store h hc _ _
  · rw [run1_finish h hc]
    exact .report h hc _

theorem Engine.runs_serveAll {is : List Instr} (h : e.Ready) (hc : e.channel? ch = some c)
    (his : ∀ i ∈ is, namesChannel ch i = true) :
    e.Answered ch (e.desc.serveAll c is).1 (e.desc.serveAll c is).2 (e.runs is) := by
  induction is generalizing e c with
  | nil => exact .nil h hc
  | cons i is ih =>
    have hfirst := Engine.run1_serve h hc (his i List.mem_cons_self)
    have hrest := ih hfirst.ready hfirst.channel fun j hj => his j (List.mem_cons_of_mem i hj)
    rw [hfirst.desc] at hrest
    exact hfirst.trans hrest

/-! ### Fresh channels -/

/-- The engine has the descriptor `d`, and channel `ch` has just been loaded from its INIT. -/
structure Engine.FreshAt (e : Engine N) (ch : BitVec 4) (d : Descriptor N) : Prop where
  ready : e.Ready
  desc : e.desc = d
  channel : e.channel? ch = some d.freshChannel

theorem Engine.FreshAt.runs {is : List Instr} (h : e.FreshAt ch d) (his : ∀ i ∈ is, namesChannel ch i = true) :
    e.Answered ch (d.serveAll d.freshChannel is).1 (d.serveAll d.freshChannel is).2 (e.runs is) := by
  have hruns := Engine.runs_serveAll h.ready h.channel his
  rwa [h.desc] at hruns

/-- Two engines whose channel `ch` is fresh under one descriptor answer alike on it. -/
theorem Engine.FreshAt.same_answers {is : List Instr} (he : e.FreshAt ch d) (hf : f.FreshAt ch d)
    (his : ∀ i ∈ is, namesChannel ch i = true) :
    ∃ rs, (e.runs is).responses = e.responses ++ rs ∧ (f.runs is).responses = f.responses ++ rs ∧
      (e.runs is).channel? ch = (f.runs is).channel? ch :=
  ⟨_, (he.runs his).responses, (hf.runs his).responses, (he.runs his).channel.trans (hf.runs his).channel.symm⟩

/-- INIT makes its channel a fresh one (spec/43_init_finish.md R200). -/
theorem Engine.freshAt_init (h : e.Ready) (hch : ch.toNat < e.nacc) :
    (e.run1 (.init ch)).FreshAt ch e.desc ∧ (e.run1 (.init ch)).responses = e.responses ++ [⟨0, 0⟩] := by
  obtain ⟨c, hc⟩ := Engine.channel?_isSome_of_lt hch
  have hinit := Engine.run1_serve (i := .init ch) h hc (beq_self_eq_true ch)
  exact ⟨⟨hinit.ready, hinit.desc, hinit.channel⟩, hinit.responses⟩

theorem Engine.configure_channel? (hch : ch.toNat < e.nacc) (d : Descriptor N) :
    (e.configure d).channel? ch = some d.freshChannel := by
  rw [Engine.channel?, Engine.configure_channels_eq_replicate, List.getElem?_replicate_of_lt hch]

/-- CONFIG makes every channel a fresh one (spec/40_descriptor.md R140). -/
theorem Engine.freshAt_config (hr : e.refused = false) (hch : ch.toNat < e.nacc) {w : BitVec 8} (h1 : 1 ≤ w.toNat)
    (h2 : w.toNat ≤ N) (r : Bool) (poly ini xorout : BitVec maxWidth) :
    (e.run1 (.config w r poly ini xorout)).FreshAt ch
        (Descriptor.build w.toNat r (laneValue N poly) (laneValue N ini) (laneValue N xorout)) ∧
      (e.run1 (.config w r poly ini xorout)).responses = e.responses ++ [⟨0, 0⟩] := by
  rw [run1_config hr h1 h2]
  exact ⟨⟨⟨hr, rfl⟩, rfl, Engine.configure_channel? hch _⟩, rfl⟩

/-! ### The empty message -/

theorem Descriptor.serveAll_replicate_empty (d : Descriptor N) (c : Channel N) (ch : BitVec 4) (m : Nat) :
    (d.serveAll c (List.replicate m (.update ch []))).1 = c := by
  induction m with
  | zero => rfl
  | succ m ih => exact ih

/-- Empty UPDATEs leave a fresh channel fresh (spec/41_update.md R164). -/
theorem Engine.FreshAt.runs_empty (h : e.FreshAt ch d) (m : Nat) :
    (e.runs (List.replicate m (.update ch []))).FreshAt ch d := by
  have hans := h.runs (is := List.replicate m (.update ch [])) fun i hi => by
    rw [List.eq_of_mem_replicate hi]
    exact beq_self_eq_true ch
  rw [Descriptor.serveAll_replicate_empty] at hans
  exact ⟨hans.ready, hans.desc.trans h.desc, hans.channel⟩

/-- The finished value of a fresh channel (spec/43_init_finish.md R205). -/
theorem fin_freshChannel_build (hW : W ≤ N) (r : Bool) (poly ini xorout : BitVec N) :
    (Descriptor.build W r poly ini xorout).fin (Descriptor.build W r poly ini xorout).freshChannel =
      (polyW r W ini).setWidth N ^^^ xorout :=
  sees_fin hW r poly ini xorout (sees_fresh hW r poly ini xorout)

/-- The lane is at least `W` bits wide, so it keeps what the `W`-bit register holds. -/
theorem polyW_laneValue (hW : W ≤ N) (r : Bool) (v : BitVec maxWidth) : polyW r W (laneValue N v) = polyW r W v := by
  simp only [polyW, laneValue, BitVec.setWidth_setWidth_of_le v hW]

/-! ### The message bits -/

/-- The two commands that feed a channel (spec/41_update.md R170). -/
theorem feedsChannel_cases (h : feedsChannel ch i = true) :
    (∃ data, i = .update ch data) ∨ ∃ bits k, i = .updateBits ch bits k ∧ k.toNat < 8 := by
  cases i with
  | update c data => exact .inl ⟨data, eq_of_beq h ▸ rfl⟩
  | updateBits c bits k =>
    obtain ⟨hc, hk⟩ := Bool.and_eq_true_iff.mp h
    exact .inr ⟨bits, k, eq_of_beq hc ▸ rfl, of_decide_eq_true hk⟩
  | config => exact nomatch h
  | init => exact nomatch h
  | finish => exact nomatch h
  | tableRead => exact nomatch h

theorem namesChannel_of_feedsChannel (h : feedsChannel ch i = true) : namesChannel ch i = true := by
  rcases feedsChannel_cases h with ⟨_, rfl⟩ | ⟨_, _, rfl, _⟩ <;> exact beq_self_eq_true ch

/-- A command that feeds a non-reflected channel is accepted, and takes its message bits into the `W`-bit register. -/
theorem sees_serve_feed (hN : 8 ≤ N) (h1 : 1 ≤ W) (hW : W ≤ N) (poly ini xorout : BitVec N) {b : BitVec W}
    (hs : Sees false (Descriptor.build W false poly ini xorout) c b) (hi : feedsChannel ch i = true) :
    Sees false (Descriptor.build W false poly ini xorout) ((Descriptor.build W false poly ini xorout).serve c i).1
        ((messageBits i).foldl (bitrefStep (poly.setWidth W)) b) ∧
      ((Descriptor.build W false poly ini xorout).serve c i).2.code = codeOk := by
  rcases feedsChannel_cases hi with ⟨data, rfl⟩ | ⟨bits, k, rfl, hk⟩
  · have hfed := sees_feedBytes hN h1 hW false poly ini xorout hs data
    rw [foldl_byteRef_false] at hfed
    exact ⟨hfed, rfl⟩
  · rw [Descriptor.serve_updateBits rfl c ch bits hk]
    exact ⟨sees_feedBits hN h1 hW poly ini xorout hs bits k.toNat hk, rfl⟩

theorem sees_serveAll_feed (hN : 8 ≤ N) (h1 : 1 ≤ W) (hW : W ≤ N) (poly ini xorout : BitVec N) {is : List Instr}
    {b : BitVec W} (hs : Sees false (Descriptor.build W false poly ini xorout) c b)
    (his : ∀ i ∈ is, feedsChannel ch i = true) :
    Sees false (Descriptor.build W false poly ini xorout) ((Descriptor.build W false poly ini xorout).serveAll c is).1
        ((is.flatMap messageBits).foldl (bitrefStep (poly.setWidth W)) b) ∧
      ∀ r ∈ ((Descriptor.build W false poly ini xorout).serveAll c is).2, r.code = codeOk := by
  induction is generalizing c b with
  | nil => exact ⟨hs, fun r hr => nomatch hr⟩
  | cons i is ih =>
    obtain ⟨hsees, hcode⟩ := sees_serve_feed hN h1 hW poly ini xorout hs (his i List.mem_cons_self)
    obtain ⟨hsees', hcodes⟩ := ih hsees fun j hj => his j (List.mem_cons_of_mem i hj)
    rw [List.flatMap_cons, List.foldl_append]
    exact ⟨hsees', List.forall_mem_cons.mpr ⟨hcode, hcodes⟩⟩

/-! ### The obligations -/

/-- Settles O39: each command takes its message bits into the `W`-bit register that the channel holds, and FIN reads it. -/
theorem bitStringLaw : Obligations.BitStringLaw := by
  intro n e W poly ini xorout ch is h1 hW h hd hc his
  have hfresh : e.FreshAt ch (Descriptor.build W false poly ini xorout) := ⟨h, hd, hd ▸ hc⟩
  have hans := hfresh.runs fun i hi => namesChannel_of_feedsChannel (his i hi)
  obtain ⟨hsees, hcodes⟩ :=
    sees_serveAll_feed n.eight_le_bits h1 hW poly ini xorout (sees_fresh hW false poly ini xorout) his
  refine ⟨_, _, execAll_eq is n e, hans.err hcodes, hans.channel, ?_⟩
  rw [hans.desc, hd, sees_fin hW false poly ini xorout hsees]
  rfl

/-- Settles O45: CONFIG and INIT leave a fresh channel, empty UPDATEs keep it so, and FIN reads its `W`-bit register. -/
theorem emptyMessageValue : Obligations.EmptyMessageValue := by
  intro n e w r poly ini xorout ch m hr hch h1 h2 low value
  have hvalue {a : Engine n.bits} (ha : a.FreshAt ch
      (Descriptor.build w.toNat r (laneValue n.bits poly) (laneValue n.bits ini) (laneValue n.bits xorout))) :
      ∃ c, (a.runs (List.replicate m (.update ch []))).channel? ch = some c ∧
        (a.runs (List.replicate m (.update ch []))).desc.fin c = value := by
    refine ⟨_, (ha.runs_empty m).channel, ?_⟩
    rw [(ha.runs_empty m).desc, fin_freshChannel_build h2, polyW_laneValue h2]
    rfl
  constructor
  · obtain ⟨c, hc⟩ := hvalue (Engine.freshAt_config hr hch h1 h2 r poly ini xorout).1
    exact ⟨_, c, execAll_eq _ n e, hc⟩
  · intro hv hd
    obtain ⟨c, hc⟩ := hvalue (hd ▸ (Engine.freshAt_init ⟨hr, hv⟩ hch).1)
    exact ⟨_, c, execAll_eq _ n e, hc⟩

/-- Settles O47: after INIT and after CONFIG the channel is fresh under the same descriptor, and that decides what is served. -/
theorem initStartsAFreshMessage : Obligations.InitStartsAFreshMessage := by
  intro n e f w r poly ini xorout ch is h hr he hf h1 h2 hd his
  obtain ⟨hinit, hrsp⟩ := Engine.freshAt_init h he
  obtain ⟨hconfig, hrsp'⟩ := Engine.freshAt_config hr hf h1 h2 r poly ini xorout
  obtain ⟨rs, ha, hb, hch⟩ := (hd ▸ hinit).same_answers hconfig his
  refine ⟨_, _, rs, execAll_eq _ n e, execAll_eq _ n f, ?_, ?_, hch⟩
  · rw [Engine.runs_cons, ha, hrsp, List.append_assoc]
    rfl
  · rw [Engine.runs_cons, hb, hrsp', List.append_assoc]
    rfl

end Sys2Proof.Machine

/-!
PROOFS. The storage width cannot be seen in results (spec/40_descriptor.md R147). An engine of any storage width that one CONFIG has
configured runs as a bank of `W`-bit registers does (`Engine.Holds`), and what the bank answers speaks of no storage width; so two such
engines answer alike.
-/

namespace Sys2Proof.Machine

variable {N : Nat} {e : Engine N} {ch : BitVec 4} {i : Instr}

/-! ### The raw parameters -/

/-- The raw parameters of a CONFIG (spec/40_descriptor.md R131). -/
structure RawParams where
  width : BitVec 8
  reflect : Bool
  poly : BitVec maxWidth
  init : BitVec maxWidth
  xorout : BitVec maxWidth

variable {p : RawParams}

/-- The CONFIG of these parameters. -/
def RawParams.command (p : RawParams) : Instr := .config p.width p.reflect p.poly p.init p.xorout

/-- What that CONFIG builds on an engine of storage width `N`. -/
def RawParams.descriptor (p : RawParams) (N : Nat) : Descriptor N :=
  Descriptor.build p.width.toNat p.reflect (laneValue N p.poly) (laneValue N p.init) (laneValue N p.xorout)

/-- The parameters fit an engine of storage width `N`. -/
structure RawParams.Fit (p : RawParams) (N : Nat) : Prop where
  eight_le : 8 ≤ N
  one_le : 1 ≤ p.width.toNat
  width_le : p.width.toNat ≤ N
  xorout_lt : p.xorout.toNat < 2 ^ N

/-! ### The bank of `W`-bit registers -/

/-- A register of the bank. -/
abbrev RawParams.Register (p : RawParams) : Type := BitVec p.width.toNat

/-- What INIT loads. -/
def RawParams.fresh (p : RawParams) : p.Register := polyW p.reflect p.width.toNat p.init

/-- The register after whole bytes. -/
def RawParams.takeBytes (p : RawParams) (c : p.Register) (data : List Byte) : p.Register :=
  data.foldl (byteRef p.reflect (polyW p.reflect p.width.toNat p.poly)) c

/-- The register after the message bits of a partial byte, in non-reflected mode. -/
def RawParams.takeBits (p : RawParams) (c : p.Register) (bits : Byte) (k : Nat) : p.Register :=
  ((byteBits bits).take (8 - k)).foldl (bitrefStep (polyW false p.width.toNat p.poly)) c

/-- The finished value, an integer. -/
def RawParams.result (p : RawParams) (c : p.Register) : Nat := c.toNat ^^^ p.xorout.toNat

/-- What a command on a register makes of it, and its response as a pair of integers: `Descriptor.serve` without the storage width. -/
def RawParams.serve (p : RawParams) (c : p.Register) : Instr → p.Register × (Nat × Nat)
  | .init _ => (p.fresh, (0, 0))
  | .update _ data => (p.takeBytes c data, (0, p.result (p.takeBytes c data)))
  | .updateBits _ bits k =>
    if p.reflect then (c, (5, 0))
    else if 8 ≤ k.toNat then (c, (6, 0))
    else (p.takeBits c bits k.toNat, (0, p.result (p.takeBits c bits k.toNat)))
  | .finish _ => (c, (0, p.result c))
  | .config _ _ _ _ _ => (c, (0, 0))
  | .tableRead _ => (c, (0, 0))

/-- A channel of an engine with these parameters holds the register `c`. -/
def RawParams.Sees (p : RawParams) (x : Channel N) (c : p.Register) : Prop :=
  Machine.Sees p.reflect (p.descriptor N) x c

theorem RawParams.sees_fresh (hp : p.Fit N) : p.Sees (p.descriptor N).freshChannel p.fresh := by
  have hs := Machine.sees_fresh hp.width_le p.reflect (laneValue N p.poly) (laneValue N p.init) (laneValue N p.xorout)
  rwa [polyW_laneValue hp.width_le] at hs

theorem RawParams.sees_takeBytes (hp : p.Fit N) {x : Channel N} {c : p.Register} (hs : p.Sees x c) (data : List Byte) :
    p.Sees ((p.descriptor N).feedBytes x data) (p.takeBytes c data) := by
  have hfed := sees_feedBytes hp.eight_le hp.one_le hp.width_le p.reflect (laneValue N p.poly) (laneValue N p.init)
    (laneValue N p.xorout) hs data
  rwa [polyW_laneValue hp.width_le] at hfed

theorem RawParams.sees_takeBits (hp : p.Fit N) (hr : p.reflect = false) {x : Channel N} {c : p.Register}
    (hs : p.Sees x c) (bits : Byte) {k : Nat} (hk : k < 8) :
    p.Sees ((p.descriptor N).feedBits x bits k) (p.takeBits c bits k) := by
  unfold RawParams.Sees RawParams.descriptor at hs ⊢
  rw [hr] at hs ⊢
  have hfed := sees_feedBits hp.eight_le hp.one_le hp.width_le (laneValue N p.poly) (laneValue N p.init)
    (laneValue N p.xorout) hs bits k hk
  rwa [polyW_laneValue hp.width_le] at hfed

/-- XOROUT fits the lane, so the finished value is one integer at every storage width. -/
theorem RawParams.fin_toNat (hp : p.Fit N) {x : Channel N} {c : p.Register} (hs : p.Sees x c) :
    ((p.descriptor N).fin x).toNat = p.result c := by
  have hfin : (p.descriptor N).fin x = c.setWidth N ^^^ laneValue N p.xorout := sees_fin hp.width_le _ _ _ _ hs
  have hc : c.toNat < 2 ^ N := lt_of_lt_of_le c.isLt (Nat.pow_le_pow_right (by omega) hp.width_le)
  rw [hfin, BitVec.toNat_xor, laneValue, BitVec.toNat_setWidth, BitVec.toNat_setWidth, Nat.mod_eq_of_lt hc,
    Nat.mod_eq_of_lt hp.xorout_lt]
  rfl

/-- A channel and the register that it holds are served alike. -/
theorem RawParams.sees_serve (hp : p.Fit N) {x : Channel N} {c : p.Register} (hs : p.Sees x c) (i : Instr) :
    p.Sees ((p.descriptor N).serve x i).1 (p.serve c i).1 ∧
      ((p.descriptor N).serve x i).2.asInteger = (p.serve c i).2 := by
  have hanswer {y : Channel N} {b : p.Register} (hy : p.Sees y b) :
      (⟨codeOk, (p.descriptor N).fin y⟩ : Response N).asInteger = (0, p.result b) :=
    congrArg (Prod.mk 0) (p.fin_toNat hp hy)
  cases i with
  | init ch => exact ⟨p.sees_fresh hp, rfl⟩
  | update ch data => exact ⟨p.sees_takeBytes hp hs data, hanswer (p.sees_takeBytes hp hs data)⟩
  | updateBits ch bits k =>
    have hreflect : (p.descriptor N).reflect = p.reflect := rfl
    simp only [Descriptor.serve, RawParams.serve, hreflect]
    cases hr : p.reflect with
    | true => exact ⟨hs, rfl⟩
    | false =>
      by_cases hk : 8 ≤ k.toNat
      · simp only [if_pos hk]
        exact ⟨hs, rfl⟩
      · simp only [if_neg hk]
        have hfed := p.sees_takeBits hp hr hs bits (Nat.lt_of_not_le hk)
        exact ⟨hfed, hanswer hfed⟩
  | finish ch => exact ⟨hs, hanswer hs⟩
  | config => exact ⟨hs, rfl⟩
  | tableRead => exact ⟨hs, rfl⟩

/-! ### The bank and the engine -/

/-- The registers of a bank, by channel number; how many of them an engine has is its NACC. -/
abbrev RawParams.Bank (p : RawParams) : Type := BitVec 4 → p.Register

/-- The channel that a command names (spec/30_encoding.md R93). -/
def channelOf : Instr → Option (BitVec 4)
  | .init ch => some ch
  | .update ch _ => some ch
  | .updateBits ch _ _ => some ch
  | .finish ch => some ch
  | .config _ _ _ _ _ => none
  | .tableRead _ => none

theorem namesChannel_of_channelOf (h : channelOf i = some ch) : namesChannel ch i = true := by
  cases i <;> cases h <;> exact beq_self_eq_true ch

theorem tableRead_of_channelOf_none (h : channelOf i = none) (hi : ∀ w r poly ini xorout, i ≠ .config w r poly ini xorout) :
    ∃ idx, i = .tableRead idx := by
  cases i with
  | tableRead idx => exact ⟨idx, rfl⟩
  | config w r poly ini xorout => exact absurd rfl (hi w r poly ini xorout)
  | init => exact nomatch h
  | update => exact nomatch h
  | updateBits => exact nomatch h
  | finish => exact nomatch h

/-- One command on a bank of `nacc` registers: the bank after it, and its response. -/
def RawParams.stepBank (p : RawParams) (nacc : Nat) (regs : p.Bank) (i : Instr) : p.Bank × (Nat × Nat) :=
  match channelOf i with
  | none => (regs, (0, 0))
  | some ch =>
    if ch.toNat < nacc then (Function.update regs ch (p.serve (regs ch) i).1, (p.serve (regs ch) i).2)
    else (regs, (3, 0))

/-- The responses of a sequence of commands on a bank. -/
def RawParams.answers (p : RawParams) (nacc : Nat) : p.Bank → List Instr → List (Nat × Nat)
  | _, [] => []
  | regs, i :: is => (p.stepBank nacc regs i).2 :: p.answers nacc (p.stepBank nacc regs i).1 is

/-- The engine is configured with the parameters, and its channels hold the registers. -/
structure Engine.Holds (e : Engine N) (p : RawParams) (regs : p.Bank) : Prop where
  ready : e.Ready
  desc : e.desc = p.descriptor N
  channels : ∀ ch x, e.channel? ch = some x → p.Sees x (regs ch)

/-- After CONFIG every channel holds the register that INIT loads. -/
theorem Engine.holds_config (hp : p.Fit N) (hr : e.refused = false) :
    (e.run1 p.command).Holds p (fun _ => p.fresh) ∧ (e.run1 p.command).responses = e.responses ++ [⟨0, 0⟩] := by
  have hrun : e.run1 p.command = (e.configure (p.descriptor N)).respondOk 0 :=
    run1_config hr hp.one_le hp.width_le ..
  rw [hrun]
  refine ⟨⟨⟨hr, rfl⟩, rfl, fun ch x hx => ?_⟩, rfl⟩
  have hlt : ch.toNat < e.nacc := e.configure_nacc (p.descriptor N) ▸ Engine.lt_nacc_of_channel? hx
  have hx' : (e.configure (p.descriptor N)).channel? ch = some x := hx
  rw [Engine.configure_channel? hlt] at hx'
  cases hx'
  exact p.sees_fresh hp

theorem Engine.run1_badChannel (hr : e.refused = false) (hi : namesChannel ch i = true) (hch : e.nacc ≤ ch.toNat) :
    e.run1 i = e.raise .badChannel := by
  rw [Engine.run1_of_not_refused hr]
  rcases namesChannel_cases hi with rfl | ⟨data, rfl⟩ | ⟨bits, k, rfl⟩ | rfl <;> exact Engine.withChannel_of_le hch

/-- Every command but CONFIG does to the engine what it does to the bank; TABLE_READ's response is left open. -/
theorem Engine.Holds.run1 (hp : p.Fit N) {regs : p.Bank} (h : e.Holds p regs)
    (hi : ∀ w r poly ini xorout, i ≠ .config w r poly ini xorout) :
    (e.run1 i).Holds p (p.stepBank e.nacc regs i).1 ∧
      ∃ r, (e.run1 i).responses = e.responses ++ [r] ∧
        ((∀ idx, i ≠ .tableRead idx) → r.asInteger = (p.stepBank e.nacc regs i).2) := by
  obtain ⟨hready, hdesc, hchannels⟩ := h
  cases hch : channelOf i with
  | none =>
    obtain ⟨idx, rfl⟩ := tableRead_of_channelOf_none hch hi
    rw [run1_tableRead hready]
    exact ⟨⟨hready, hdesc, hchannels⟩, _, rfl, fun hidx => absurd rfl (hidx idx)⟩
  | some ch =>
    have hnames := namesChannel_of_channelOf hch
    simp only [RawParams.stepBank, hch]
    by_cases hlt : ch.toNat < e.nacc
    · obtain ⟨x, hx⟩ := Engine.channel?_isSome_of_lt hlt
      obtain ⟨hsees, hinteger⟩ := p.sees_serve hp (hchannels ch x hx) i
      have hserve := Engine.run1_serve hready hx hnames
      rw [hdesc] at hserve
      simp only [if_pos hlt]
      refine ⟨⟨hserve.ready, hserve.desc.trans hdesc, fun b y hy => ?_⟩, _, hserve.responses, fun _ => hinteger⟩
      by_cases hb : b = ch
      · subst hb
        cases hserve.channel.symm.trans hy
        rwa [Function.update_self]
      · rw [Engine.run1_of_not_refused hready.1, Engine.effect_channel?_ne hnames hb] at hy
        rw [Function.update_of_ne hb]
        exact hchannels b y hy
    · rw [Engine.run1_badChannel hready.1 hnames (Nat.le_of_not_lt hlt)]
      simp only [if_neg hlt]
      exact ⟨⟨hready, hdesc, hchannels⟩, _, rfl, fun _ => rfl⟩

/-- The responses of an engine, TABLE_READ's left out, are those of its bank. -/
theorem Engine.Holds.runs (hp : p.Fit N) {regs : p.Bank} {is : List Instr} (h : e.Holds p regs)
    (his : ∀ w r poly ini xorout, Instr.config w r poly ini xorout ∉ is) :
    ∃ rs, (e.runs is).responses = e.responses ++ rs ∧ rs.length = is.length ∧
      ∀ (j : Nat) (i : Instr), is[j]? = some i → (∀ idx, i ≠ .tableRead idx) →
        rs[j]?.map Response.asInteger = (p.answers e.nacc regs is)[j]? := by
  induction is generalizing e regs with
  | nil => exact ⟨[], (List.append_nil _).symm, rfl, fun j i hj => nomatch hj⟩
  | cons i is ih =>
    have hi : ∀ w r poly ini xorout, i ≠ .config w r poly ini xorout :=
      fun w r poly ini xorout h => his w r poly ini xorout (h ▸ List.mem_cons_self)
    obtain ⟨hfirst, r, hr, hanswer⟩ := h.run1 hp hi
    obtain ⟨rs, hrs, hlen, hanswers⟩ :=
      ih hfirst fun w r poly ini xorout hmem => his w r poly ini xorout (List.mem_cons_of_mem i hmem)
    rw [Engine.run1_nacc] at hanswers
    refine ⟨r :: rs, ?_, congrArg (· + 1) hlen, fun j i' hj hidx => ?_⟩
    · rw [Engine.runs_cons, hrs, hr, List.append_assoc]
      rfl
    · cases j with
      | zero =>
        cases hj
        exact congrArg some (hanswer hidx)
      | succ j => exact hanswers j i' hj hidx

/-! ### The obligation -/

theorem RawParams.Fit.of_wellFormed {n : StorageWidth} (h1 : 1 ≤ p.width.toNat) (h2 : p.width.toNat ≤ n.bits)
    (hwf : p.command.WellFormed n = true) : p.Fit n.bits where
  eight_le := n.eight_le_bits
  one_le := h1
  width_le := h2
  xorout_lt := of_decide_eq_true (Bool.and_eq_true_iff.mp hwf).2

/-- CONFIG, and then what the bank answers. -/
theorem Engine.runs_config (hp : p.Fit N) (hr : e.refused = false) {is : List Instr}
    (his : ∀ w r poly ini xorout, Instr.config w r poly ini xorout ∉ is) :
    ∃ rs, (e.runs (p.command :: is)).responses = e.responses ++ ⟨0, 0⟩ :: rs ∧ rs.length = is.length ∧
      ∀ (j : Nat) (i : Instr), is[j]? = some i → (∀ idx, i ≠ .tableRead idx) →
        rs[j]?.map Response.asInteger = (p.answers e.nacc (fun _ => p.fresh) is)[j]? := by
  obtain ⟨hholds, hrsp⟩ := Engine.holds_config hp hr
  obtain ⟨rs, hrs, hlen, hanswers⟩ := hholds.runs hp his
  rw [Engine.run1_nacc] at hanswers
  refine ⟨rs, ?_, hlen, hanswers⟩
  rw [Engine.runs_cons, hrs, hrsp, List.append_assoc]
  rfl

/-- Settles O29: each engine answers as the bank of `W`-bit registers does. -/
theorem resultsDoNotDependOnStorageWidth : Obligations.ResultsDoNotDependOnStorageWidth := by
  intro n₁ n₂ e₁ e₂ w r poly ini xorout is hr₁ hr₂ hnacc h1 hw₁ hw₂ hwf₁ hwf₂ his
  obtain ⟨ra, hra, hlena, ha⟩ := Engine.runs_config (p := ⟨w, r, poly, ini, xorout⟩) (.of_wellFormed h1 hw₁ hwf₁) hr₁ his
  obtain ⟨rb, hrb, hlenb, hb⟩ := Engine.runs_config (p := ⟨w, r, poly, ini, xorout⟩) (.of_wellFormed h1 hw₂ hwf₂) hr₂ his
  refine ⟨_, _, ra, rb, execAll_eq _ n₁ e₁, execAll_eq _ n₂ e₂, hra, hrb, hlena, hlenb, fun j i hj hidx => ?_⟩
  rw [ha j i hj hidx, hb j i hj hidx, hnacc]

end Sys2Proof.Machine

/-!
PROOFS. UPDATE (spec/41_update.md, spec/42_update_bits.md R187, spec/10_state.md R41). The channel and the response of one UPDATE in each
mode; an UPDATE in pieces, one seam at a time; and the variant engine that stores aligned views. `Descriptor.view` is what such an engine
holds of a channel: feeding and finishing see a channel only through its view, so the variant stays the image of the engine at every
command.
-/

namespace Sys2Proof.Machine

variable {N : Nat} {e f g : Engine N} {ch : BitVec 4} {c c' : Channel N} {d : Descriptor N}

/-! ### Feeding and finishing in each mode -/

theorem align_crc (d : Descriptor N) (c : Channel N) :
    (d.align c).crc = if c.aligned then c.crc else c.crc <<< d.offset := by
  unfold Descriptor.align
  split <;> rfl

theorem align_of_aligned (h : c.aligned = true) : d.align c = c := if_pos h

/-- Reflected bytes leave ALIGNED as it was (spec/41_update.md R161); no bytes are no exception. -/
theorem feedBytes_reflected (hr : d.reflect = true) (c : Channel N) (data : List Byte) :
    d.feedBytes c data = ⟨data.foldl d.byteStepR c.crc, c.aligned⟩ := by
  by_cases hdata : data = []
  · rw [hdata, feedBytes_nil, List.foldl_nil]
  · rw [Descriptor.feedBytes, if_neg hdata, if_pos hr]

/-- The first byte aligns the channel (spec/41_update.md R162, R163). -/
theorem feedBytes_nonReflected (hr : d.reflect = false) (c : Channel N) {data : List Byte} (hdata : data ≠ []) :
    d.feedBytes c data = ⟨data.foldl d.byteStepNR (d.align c).crc, true⟩ := by
  rw [Descriptor.feedBytes, if_neg hdata, hr, if_neg Bool.false_ne_true]

theorem fin_reflected (hr : d.reflect = true) (c : Channel N) : d.fin c = c.crc ^^^ d.xorout := if_pos hr

theorem fin_of_aligned (hr : d.reflect = false) (h : c.aligned = true) :
    d.fin c = (c.crc >>> d.offset) ^^^ d.xorout := by
  rw [Descriptor.fin, hr, if_neg Bool.false_ne_true, align_of_aligned h]

/-! ### An UPDATE in pieces -/

/-- What the chunking law compares: the channels, the descriptor and the last response (spec/41_update.md R168). -/
structure Engine.SameOutcome (e f : Engine N) : Prop where
  channels : e.channels = f.channels
  desc : e.desc = f.desc
  last : e.responses.getLast? = f.responses.getLast?

theorem Engine.SameOutcome.refl (e : Engine N) : e.SameOutcome e := ⟨rfl, rfl, rfl⟩

theorem Engine.SameOutcome.trans (h : e.SameOutcome f) (h' : f.SameOutcome g) : e.SameOutcome g :=
  ⟨h.channels.trans h'.channels, h.desc.trans h'.desc, h.last.trans h'.last⟩

/-- An UPDATE keeps the engine fit for the next one, and leaves the fed channel to it. -/
theorem Engine.answered_update (h : e.Ready) (hc : e.channel? ch = some c) (data : List Byte) :
    e.Answered ch (e.desc.feedBytes c data) [⟨codeOk, e.desc.fin (e.desc.feedBytes c data)⟩] (e.run1 (.update ch data)) :=
  Engine.run1_serve (i := .update ch data) h hc (beq_self_eq_true ch)

theorem Engine.run1_update_channels (h : e.Ready) (hc : e.channel? ch = some c) (data : List Byte) :
    (e.run1 (.update ch data)).channels = e.channels.set ch.toNat (e.desc.feedBytes c data) := by
  rw [run1_update h hc]
  rfl

/-- One seam: two UPDATEs come out as the one UPDATE of both pieces. -/
theorem Engine.sameOutcome_update_append (h : e.Ready) (hc : e.channel? ch = some c) (x y : List Byte) :
    ((e.run1 (.update ch x)).run1 (.update ch y)).SameOutcome (e.run1 (.update ch (x ++ y))) := by
  have hx := Engine.answered_update h hc x
  have hy := Engine.answered_update hx.ready hx.channel y
  have hxy := Engine.answered_update h hc (x ++ y)
  refine ⟨?_, (hy.desc.trans hx.desc).trans hxy.desc.symm, ?_⟩
  · rw [Engine.run1_update_channels hx.ready hx.channel, Engine.run1_update_channels h hc, Engine.run1_update_channels h hc,
      hx.desc, List.set_set, feedBytes_append]
  · rw [hy.responses, hxy.responses, List.getLast?_concat, List.getLast?_concat, hx.desc, feedBytes_append]

/-- Every seam: the first piece is joined to what the others come out as. -/
theorem Engine.sameOutcome_updates (h : e.Ready) (hc : e.channel? ch = some c) (x : List Byte) (xs : List (List Byte)) :
    (e.runs ((x :: xs).map (Instr.update ch))).SameOutcome (e.run1 (.update ch (x :: xs).flatten)) := by
  induction xs generalizing e c x with
  | nil =>
    rw [List.flatten_singleton]
    exact .refl _
  | cons y ys ih =>
    have hx := Engine.answered_update h hc x
    exact (ih hx.ready hx.channel y).trans (Engine.sameOutcome_update_append h hc x (y :: ys).flatten)

/-! ### The view of a channel -/

/-- A channel as the variant of spec/10_state.md R41 holds it. -/
def Descriptor.view (d : Descriptor N) (c : Channel N) : Channel N := if d.reflect then c else d.align c

theorem view_reflected (hr : d.reflect = true) (c : Channel N) : d.view c = c := if_pos hr

theorem view_nonReflected (hr : d.reflect = false) (c : Channel N) : d.view c = d.align c := by
  rw [Descriptor.view, hr, if_neg Bool.false_ne_true]

theorem view_view (d : Descriptor N) (c : Channel N) : d.view (d.view c) = d.view c := by
  cases hr : d.reflect with
  | true => simp only [view_reflected hr]
  | false => simp only [view_nonReflected hr, align_align]

/-- FIN looks at the view. -/
theorem fin_view (d : Descriptor N) (c : Channel N) : d.fin (d.view c) = d.fin c := by
  cases hr : d.reflect with
  | true => rw [view_reflected hr]
  | false => rw [view_nonReflected hr, fin_align d c hr]

theorem view_feedBytes_view (d : Descriptor N) (c : Channel N) (data : List Byte) :
    d.view (d.feedBytes (d.view c) data) = d.view (d.feedBytes c data) := by
  cases hr : d.reflect with
  | true => rw [view_reflected hr c]
  | false => simp only [view_nonReflected hr, align_feedBytes d c hr]

/-- The bit unit aligns its channel first (spec/42_update_bits.md R183). -/
theorem feedBits_view (hr : d.reflect = false) (c : Channel N) (bits : Byte) (k : Nat) :
    d.feedBits (d.view c) bits k = d.feedBits c bits k := by
  rw [view_nonReflected hr, Descriptor.feedBits, Descriptor.feedBits, align_align]

/-- Channels of one view have one finished value. -/
theorem fin_eq_of_view_eq (h : d.view c = d.view c') : d.fin c = d.fin c' := by
  rw [← fin_view d c, h, fin_view]

/-! ### The variant engine -/

/-- The variant holds the views, and is the engine in everything else. -/
theorem Engine.preAligned_eq (e : Engine N) : e.preAligned = e.withRegisters e.desc (e.channels.map e.desc.view) := by
  unfold Engine.preAligned
  split
  · next hr =>
    have hview : e.desc.view = id := funext (view_reflected hr)
    rw [hview, List.map_id]
    rfl
  · next hr =>
    have hview : e.desc.view = e.desc.align := funext (view_nonReflected (Bool.not_eq_true _ ▸ hr))
    rw [hview]
    rfl

theorem Engine.preAligned_desc (e : Engine N) : e.preAligned.desc = e.desc := by
  rw [e.preAligned_eq]
  rfl

theorem Engine.preAligned_cfgValid (e : Engine N) : e.preAligned.cfgValid = e.cfgValid := by
  rw [e.preAligned_eq]
  rfl

theorem Engine.preAligned_refused (e : Engine N) : e.preAligned.refused = e.refused := by
  rw [e.preAligned_eq]
  rfl

theorem Engine.preAligned_channels (e : Engine N) : e.preAligned.channels = e.channels.map e.desc.view := by
  rw [e.preAligned_eq]
  rfl

theorem Engine.preAligned_responses (e : Engine N) : e.preAligned.responses = e.responses := by
  rw [e.preAligned_eq]
  rfl

theorem Engine.preAligned_status (e : Engine N) : e.preAligned.status = e.status := by
  rw [e.preAligned_eq]
  rfl

theorem Engine.preAligned_nacc (e : Engine N) : e.preAligned.nacc = e.nacc := by
  rw [Engine.nacc, e.preAligned_channels, List.length_map]
  rfl

theorem Engine.preAligned_channel? (e : Engine N) (ch : BitVec 4) :
    e.preAligned.channel? ch = (e.channel? ch).map e.desc.view := by
  rw [Engine.channel?, e.preAligned_channels, List.getElem?_map]
  rfl

theorem Engine.preAligned_preAligned (e : Engine N) : e.preAligned.preAligned = e.preAligned := by
  rw [e.preAligned.preAligned_eq, e.preAligned_desc, e.preAligned_channels, List.map_map]
  have hview : e.desc.view ∘ e.desc.view = e.desc.view := funext (view_view e.desc)
  rw [hview, e.preAligned_eq]
  rfl

/-! ### Operations on the variant engine -/

theorem Engine.preAligned_respondOk (e : Engine N) (v : BitVec N) :
    (e.respondOk v).preAligned = e.preAligned.respondOk v := by
  rw [e.preAligned_eq, Engine.preAligned_eq]
  rfl

theorem Engine.preAligned_raise (e : Engine N) (x : Cause) : (e.raise x).preAligned = e.preAligned.raise x := by
  rw [e.preAligned_eq, Engine.preAligned_eq]
  rfl

theorem Engine.preAligned_setChannel (e : Engine N) (ch : BitVec 4) (c : Channel N) :
    (e.setChannel ch c).preAligned = e.preAligned.setChannel ch (e.desc.view c) := by
  rw [e.preAligned_eq, Engine.preAligned_eq, Engine.setChannel_channels, List.map_set]
  rfl

theorem Engine.preAligned_noMeaning (e : Engine N) : e.preAligned.noMeaning = e.noMeaning := by
  rw [e.preAligned_eq, Engine.noMeaning_withRegisters (List.length_map _)]

theorem Engine.preAligned_config (e : Engine N) (W : Nat) (r : Bool) (poly ini xorout : BitVec N) :
    e.preAligned.config W r poly ini xorout = e.config W r poly ini xorout := by
  rw [e.preAligned_eq, Engine.config_withRegisters (List.length_map _)]

/-! ### Commands on the variant engine -/

/-- `f` and `e` are the same engine to the variant: they differ at most in which channels are stored aligned. -/
def Engine.SameVariant (f e : Engine N) : Prop := f.preAligned = e.preAligned

theorem Engine.sameVariant_preAligned (e : Engine N) : e.preAligned.SameVariant e := e.preAligned_preAligned

theorem Engine.SameVariant.respondOk (h : f.SameVariant e) (v : BitVec N) : (f.respondOk v).SameVariant (e.respondOk v) := by
  rw [Engine.SameVariant, f.preAligned_respondOk, e.preAligned_respondOk, h]

theorem Engine.SameVariant.raise (h : f.SameVariant e) (x : Cause) : (f.raise x).SameVariant (e.raise x) := by
  rw [Engine.SameVariant, f.preAligned_raise, e.preAligned_raise, h]

/-- Storing channels of one view. -/
theorem Engine.sameVariant_setChannel (e : Engine N) (ch : BitVec 4) (h : e.desc.view c' = e.desc.view c) :
    (e.preAligned.setChannel ch c').SameVariant (e.setChannel ch c) := by
  rw [Engine.SameVariant, Engine.preAligned_setChannel, e.preAligned_setChannel, e.preAligned_preAligned, e.preAligned_desc, h]

/-- Storing channels of one view also responds with one value. -/
theorem Engine.sameVariant_storeAndFinish (e : Engine N) (ch : BitVec 4) (h : e.desc.view c' = e.desc.view c) :
    (e.preAligned.storeAndFinish ch c').SameVariant (e.storeAndFinish ch c) := by
  unfold Engine.storeAndFinish
  rw [e.preAligned_desc, fin_eq_of_view_eq h]
  exact (e.sameVariant_setChannel ch h).respondOk _

/-- Both checks come out alike on the two engines, and what follows them is handed the channel or its view. -/
theorem Engine.sameVariant_withChannel {k k' : Channel N → Engine N} (e : Engine N) (ch : BitVec 4)
    (hk : ∀ c, (k' (e.desc.view c)).SameVariant (k c)) :
    (e.preAligned.withChannel ch k').SameVariant (e.withChannel ch k) := by
  rcases e.withChannel_cases ch k with ⟨hle, he⟩ | ⟨hlt, hv, he⟩ | ⟨c, hc, hv, he⟩ <;> rw [he]
  · rw [Engine.withChannel_of_le (e.preAligned_nacc.trans_le hle)]
    exact e.sameVariant_preAligned.raise .badChannel
  · rw [Engine.withChannel_of_not_valid (hlt.trans_eq e.preAligned_nacc.symm) (e.preAligned_cfgValid.trans hv)]
    exact e.sameVariant_preAligned.raise .notConfigured
  · have hc' : e.preAligned.channel? ch = some (e.desc.view c) := by rw [e.preAligned_channel?, hc, Option.map_some]
    rw [Engine.withChannel_of_some hc' (e.preAligned_cfgValid.trans hv)]
    exact hk c

/-- Every command's effect on the variant is its effect on the engine, seen by the variant. -/
theorem Engine.sameVariant_effect (e : Engine N) (i : Instr) : (e.preAligned.effect i).SameVariant (e.effect i) := by
  cases i with
  | config w r poly ini xorout =>
    simp only [Engine.effect, e.preAligned_config]
    rfl
  | init ch =>
    refine e.sameVariant_withChannel ch fun c => ?_
    rw [e.preAligned_desc]
    exact (e.sameVariant_setChannel ch rfl).respondOk 0
  | update ch data =>
    refine e.sameVariant_withChannel ch fun c => ?_
    rw [e.preAligned_desc]
    exact e.sameVariant_storeAndFinish ch (view_feedBytes_view e.desc c data)
  | updateBits ch bits k =>
    refine e.sameVariant_withChannel ch fun c => ?_
    rw [e.preAligned_desc]
    cases hr : e.desc.reflect with
    | true => exact e.sameVariant_preAligned.raise .precondReflect
    | false =>
      by_cases hk : 8 ≤ k.toNat
      · simp only [if_pos hk, Bool.false_eq_true, if_false]
        exact e.sameVariant_preAligned.raise .precondOffset
      · simp only [if_neg hk, Bool.false_eq_true, if_false, feedBits_view hr]
        exact e.sameVariant_storeAndFinish ch rfl
  | finish ch =>
    refine e.sameVariant_withChannel ch fun c => ?_
    rw [e.preAligned_desc, fin_view]
    exact e.sameVariant_preAligned.respondOk _
  | tableRead idx =>
    simp only [Engine.effect, Engine.tableRead, e.preAligned_desc]
    cases hv : e.cfgValid with
    | false =>
      rw [Engine.whenConfigured_of_not_valid hv, Engine.whenConfigured_of_not_valid (e.preAligned_cfgValid.trans hv)]
      exact e.sameVariant_preAligned.raise .notConfigured
    | true =>
      rw [Engine.whenConfigured_of_valid hv, Engine.whenConfigured_of_valid (e.preAligned_cfgValid.trans hv)]
      exact e.sameVariant_preAligned.respondOk _

theorem Engine.sameVariant_run1 (e : Engine N) (i : Instr) : (e.preAligned.run1 i).SameVariant (e.run1 i) := by
  cases hr : e.refused with
  | true =>
    rw [Engine.run1_of_refused hr, Engine.run1_of_refused (e.preAligned_refused.trans hr), e.preAligned_noMeaning]
    rfl
  | false =>
    rw [Engine.run1_of_not_refused hr, Engine.run1_of_not_refused (e.preAligned_refused.trans hr)]
    exact e.sameVariant_effect i

/-- A run of the variant ends in the variant of the engine's own run. -/
theorem execAllPreAligned_eq (is : List Instr) (n : StorageWidth) (e : Engine n.bits) :
    execAllPreAligned is ⟨n, e.preAligned⟩ = .next ⟨n, (e.runs is).preAligned⟩ := by
  induction is generalizing e with
  | nil => rfl
  | cons i is ih =>
    have hstep : (e.preAligned.run1 i).preAligned = (e.run1 i).preAligned := e.sameVariant_run1 i
    rw [execAllPreAligned, exec_eq, Engine.runs_cons, ← ih, ← hstep]
    rfl

/-! ### The obligations -/

/-- Settles O30: the channel and its finished value, each in reflected mode. -/
theorem reflectedUpdateResult : Obligations.ReflectedUpdateResult := by
  intro n e ch c data h hr hc crc
  rw [exec_eq, run1_update h hc, feedBytes_reflected hr, Engine.storeAndFinish, fin_reflected hr]
  rfl

/-- Settles O31: the channel and its finished value, each in non-reflected mode, from the register alignment leaves. -/
theorem nonReflectedUpdateResult : Obligations.NonReflectedUpdateResult := by
  intro n e ch c data h hr hc hdata start crc
  rw [exec_eq, run1_update h hc, feedBytes_nonReflected hr c hdata, align_crc, Engine.storeAndFinish, fin_of_aligned hr rfl]
  rfl

/-- Settles O32: no bytes write back what the channel holds. -/
theorem emptyUpdateChangesNoState : Obligations.EmptyUpdateChangesNoState := by
  intro n e ch c h hc
  rw [exec_eq, run1_update h hc, feedBytes_nil, Engine.storeAndFinish, Engine.setChannel_channel? hc]
  rfl

/-- Settles O34: the pieces are joined one seam at a time. -/
theorem chunkingDoesNotMatter : Obligations.ChunkingDoesNotMatter := by
  intro n e ch pieces h hch hpieces
  obtain ⟨c, hc⟩ := Engine.channel?_isSome_of_lt hch
  obtain ⟨x, xs, rfl⟩ := List.exists_cons_of_ne_nil hpieces
  obtain ⟨hchannels, hdesc, hlast⟩ := Engine.sameOutcome_updates h hc x xs
  obtain ⟨r, hr⟩ := e.run1_responses (.update ch (x :: xs).flatten)
  have hb : (e.run1 (.update ch (x :: xs).flatten)).responses.getLast? = some r := by rw [hr, List.getLast?_concat]
  exact ⟨_, _, r, execAll_eq _ n e, exec_eq _ n e, hchannels, hdesc, hlast.trans hb, hb⟩

/-- Settles O38: both commands store the same channel, by `feedBits_full`. -/
theorem fullByteThroughTheBitUnit : Obligations.FullByteThroughTheBitUnit := by
  intro n e ch b h hr htable hch
  obtain ⟨c, hc⟩ := Engine.channel?_isSome_of_lt hch
  have hfull : e.desc.feedBits c b (0 : BitVec 4).toNat = e.desc.feedBytes c [b] :=
    feedBits_full n.eight_le_bits hr htable c b
  refine ⟨e.storeAndFinish ch (e.desc.feedBytes c [b]), ?_, ?_, rfl⟩
  · rw [exec_eq, run1_updateBits h hc hr b (by decide), hfull]
  · rw [exec_eq, run1_update h hc]

/-- Settles O56: the variant's run ends in the variant of the engine's run, which reports the same. -/
theorem alignedCannotBeObserved : Obligations.AlignedCannotBeObserved := fun n e is =>
  ⟨_, _, execAll_eq is n e, execAllPreAligned_eq is n e, (Engine.preAligned_responses _).symm,
    (Engine.preAligned_status _).symm⟩

/-- Settles O33: at `N` = 8 the shift by 8 leaves 0, and either index byte is the register. -/
theorem byteStepsAtWidthEight : Obligations.ByteStepsAtWidthEight := by
  intro d crc b
  have hlow : lowByte crc = crc := BitVec.setWidth_eq crc
  have hhigh : highByte crc = crc := by simp [highByte]
  have hright : crc >>> 8 = 0#8 := BitVec.ushiftRight_eq_zero (Nat.le_refl 8)
  have hleft : crc <<< 8 = 0#8 := BitVec.shiftLeft_eq_zero (Nat.le_refl 8)
  exact ⟨by rw [Descriptor.byteStepR, hlow, hright, BitVec.zero_xor],
    by rw [Descriptor.byteStepNR, hhigh, hleft, BitVec.zero_xor]⟩

end Sys2Proof.Machine

/-!
PROOFS. UPDATE_BITS (spec/42_update_bits.md): its two preconditions in their order, the channel and the response where both hold, and
that the bits below `K` are masked out before anything reads them. Rejected, accepted or refused, the command sees BITS only through
`partialByte`.
-/

namespace Sys2Proof.Machine

variable {N : Nat} {e : Engine N} {ch : BitVec 4} {c : Channel N} {d : Descriptor N}

/-! ### The preconditions -/

/-- What is left to decide once the channel is found (spec/42_update_bits.md R181). -/
theorem Engine.run1_updateBits_of_channel (h : e.Ready) (hc : e.channel? ch = some c) (bits : Byte) (k : BitVec 4) :
    e.run1 (.updateBits ch bits k) =
      if e.desc.reflect then e.raise .precondReflect
      else if 8 ≤ k.toNat then e.raise .precondOffset
      else e.storeAndFinish ch (e.desc.feedBits c bits k.toNat) :=
  have ⟨hrefused, hvalid⟩ := h
  (Engine.run1_of_not_refused hrefused _).trans (Engine.withChannel_of_some hc hvalid)

theorem Engine.run1_updateBits_reflected (h : e.Ready) (hc : e.channel? ch = some c) (hr : e.desc.reflect = true)
    (bits : Byte) (k : BitVec 4) : e.run1 (.updateBits ch bits k) = e.raise .precondReflect := by
  rw [Engine.run1_updateBits_of_channel h hc, if_pos hr]

theorem Engine.run1_updateBits_offset (h : e.Ready) (hc : e.channel? ch = some c) (hr : e.desc.reflect = false)
    (bits : Byte) {k : BitVec 4} (hk : 8 ≤ k.toNat) : e.run1 (.updateBits ch bits k) = e.raise .precondOffset := by
  rw [Engine.run1_updateBits_of_channel h hc, hr, if_neg Bool.false_ne_true, if_pos hk]

/-! ### The channel -/

/-- The bit unit with its steps and its mask written out (spec/42_update_bits.md R182, R183, R184). -/
theorem feedBits_eq_iterate (d : Descriptor N) (c : Channel N) (bits : Byte) (k : Nat) :
    d.feedBits c bits k =
      ⟨(fun v : BitVec N => if v.getLsbD (N - 1) = true then (v <<< 1) ^^^ d.poly else v <<< 1)^[8 - k]
        ((if c.aligned then c.crc else c.crc <<< d.offset) ^^^
          ((bits &&& ((0xFF : Byte) <<< k)).setWidth N <<< (N - 8))), true⟩ := by
  rw [Descriptor.feedBits, bitSteps_eq_iterate, align_crc]
  rfl

/-! ### The bits below `K` -/

theorem feedBits_congr {b₁ b₂ : Byte} {k : Nat} (h : ∀ j, k ≤ j → b₁.getLsbD j = b₂.getLsbD j) (d : Descriptor N)
    (c : Channel N) : d.feedBits c b₁ k = d.feedBits c b₂ k := by
  rw [Descriptor.feedBits, Descriptor.feedBits, partialByte_congr h]

theorem Engine.updateBits_congr {b₁ b₂ : Byte} {k : BitVec 4} (h : ∀ j, k.toNat ≤ j → b₁.getLsbD j = b₂.getLsbD j)
    (e : Engine N) (ch : BitVec 4) : e.updateBits ch b₁ k = e.updateBits ch b₂ k := by
  simp only [Engine.updateBits, feedBits_congr h]

/-- The engine need not be Ready: a refused one draws its free values without looking at the command. -/
theorem Engine.run1_updateBits_congr {b₁ b₂ : Byte} {k : BitVec 4}
    (h : ∀ j, k.toNat ≤ j → b₁.getLsbD j = b₂.getLsbD j) (e : Engine N) (ch : BitVec 4) :
    e.run1 (.updateBits ch b₁ k) = e.run1 (.updateBits ch b₂ k) :=
  congrArg e.perform (funext fun f => f.updateBits_congr h ch)

/-! ### The obligations -/

/-- Settles O15: REFLECT is looked at first and `K` second, and either failure is one `Engine.raise`. -/
theorem updateBitsPreconditionsAreChecked : Obligations.UpdateBitsPreconditionsAreChecked := by
  intro n e ch bits k h hch
  obtain ⟨c, hc⟩ := Engine.channel?_isSome_of_lt hch
  refine ⟨fun hr => ?_, fun hr hk => ?_⟩
  · rw [exec_eq, Engine.run1_updateBits_reflected h hc hr]
    rfl
  · rw [exec_eq, Engine.run1_updateBits_offset h hc hr bits hk]
    rfl

/-- Settles O36: the stored channel is the bit unit's, and its finished value is that of an aligned channel. -/
theorem updateBitsResult : Obligations.UpdateBitsResult := by
  intro n e ch c bits k h hr hc hk start m crc
  rw [exec_eq, run1_updateBits h hc hr bits hk, feedBits_eq_iterate, Engine.storeAndFinish, fin_of_aligned hr rfl]
  rfl

/-- Settles O37: both bytes have one `partialByte`, so the two commands are one function of the engine. -/
theorem bitsBelowKDoNotMatter : Obligations.BitsBelowKDoNotMatter := by
  intro n e ch bits₁ bits₂ k h
  refine ⟨e.run1 (.updateBits ch bits₁ k), exec_eq _ n e, ?_⟩
  rw [exec_eq, Engine.run1_updateBits_congr h]

end Sys2Proof.Machine

/-!
PROOFS. INIT, FINISH and the readers (spec/43_init_finish.md R200 to R204, spec/44_table_read.md R221). The commands append to the
response stream and never look at it: `Engine.withHistory` puts earlier responses in front of it, and every command commutes with
that. A reader leaves the engine as it was but for its own response, so it only lengthens the history of what follows.
-/

namespace Sys2Proof.Machine

variable {N : Nat} {e : Engine N} {ch : BitVec 4} {c : Channel N} {d : Descriptor N} {i : Instr}

/-! ### FIN -/

/-- FIN with its alignment written out (spec/43_init_finish.md R201). -/
theorem fin_eq_ite (d : Descriptor N) (c : Channel N) :
    d.fin c = if d.reflect then c.crc ^^^ d.xorout
      else ((if c.aligned then c.crc else c.crc <<< d.offset) >>> d.offset) ^^^ d.xorout := by
  rw [Descriptor.fin, align_crc]

/-- From position `W` on, a reflected register holds no bit, and the shift by OFFSET brings none down to a non-reflected result. -/
theorem fin_getLsbD_of_width_le (hc : c.Legal d) {j : Nat} (hj : d.width ≤ j) :
    (d.fin c).getLsbD j = d.xorout.getLsbD j := by
  cases hr : d.reflect with
  | true =>
    rw [Channel.Legal, if_pos hr] at hc
    obtain ⟨hcrc, -⟩ := hc
    have hhigh : c.crc.getLsbD j = false := (toNat_lt_iff_high d.width c.crc).mp hcrc j hj
    rw [fin_reflected hr, BitVec.getLsbD_xor, hhigh, Bool.false_xor]
  | false =>
    have hout : N ≤ d.offset + j := Nat.sub_le_iff_le_add'.mp hj
    rw [Descriptor.fin, hr, if_neg Bool.false_ne_true, BitVec.getLsbD_xor, BitVec.getLsbD_ushiftRight,
      BitVec.getLsbD_of_ge _ _ hout, Bool.false_xor]

/-! ### FINISH and TABLE_READ as readers -/

/-- A FINISH or TABLE_READ that is accepted appends one response and does nothing else (spec/43_init_finish.md R202,
spec/44_table_read.md R220). -/
theorem Engine.run1_reader (h : e.Ready)
    (hi : (∃ ch : BitVec 4, i = .finish ch ∧ ch.toNat < e.nacc) ∨ ∃ idx, i = .tableRead idx) :
    ∃ v, e.run1 i = e.respondOk v := by
  obtain ⟨ch, rfl, hch⟩ | ⟨idx, rfl⟩ := hi
  · obtain ⟨c, hc⟩ := Engine.channel?_isSome_of_lt hch
    exact ⟨_, run1_finish h hc⟩
  · exact ⟨_, run1_tableRead h idx⟩

/-- FINISH leaves the channel and the descriptor it reads, so the next one reads the same (spec/43_init_finish.md R203). -/
theorem Engine.runs_replicate_finish (h : e.Ready) (hc : e.channel? ch = some c) (m : Nat) :
    e.runs (List.replicate m (.finish ch)) =
      { e with responses := e.responses ++ List.replicate m ⟨codeOk, e.desc.fin c⟩ } := by
  induction m generalizing e with
  | zero => rw [List.replicate_zero, List.replicate_zero, List.append_nil, Engine.runs_nil]
  | succ m ih =>
    have hrest := ih (e := e.respondOk (e.desc.fin c)) h hc
    rw [List.replicate_succ, Engine.runs_cons, run1_finish h hc, hrest, Engine.respondOk_responses, List.append_assoc]
    rfl

/-! ### The response stream is written and never read -/

/-- The engine with the responses `rs` in front of its own. -/
def Engine.withHistory (e : Engine N) (rs : List (Response N)) : Engine N := { e with responses := rs ++ e.responses }

section

variable (e : Engine N) (rs : List (Response N))

theorem Engine.withHistory_respond (code : BitVec 4) (v : BitVec N) :
    (e.withHistory rs).respond code v = (e.respond code v).withHistory rs := by
  rw [Engine.respond, Engine.withHistory, List.append_assoc]
  rfl

theorem Engine.withHistory_respondOk (v : BitVec N) :
    (e.withHistory rs).respondOk v = (e.respondOk v).withHistory rs := e.withHistory_respond rs codeOk v

theorem Engine.withHistory_raise (x : Cause) : (e.withHistory rs).raise x = (e.raise x).withHistory rs :=
  (e.recordError x).withHistory_respond rs (causeCode x) 0

theorem Engine.withHistory_storeAndFinish (ch : BitVec 4) (c : Channel N) :
    (e.withHistory rs).storeAndFinish ch c = (e.storeAndFinish ch c).withHistory rs :=
  (e.setChannel ch c).withHistory_respondOk rs (e.desc.fin c)

theorem Engine.withHistory_noMeaning : (e.withHistory rs).noMeaning = e.noMeaning.withHistory rs := by
  simp only [Engine.noMeaning, Engine.withHistory, List.append_assoc]
  rfl

theorem Engine.withHistory_config (W : Nat) (r : Bool) (poly ini xorout : BitVec N) :
    (e.withHistory rs).config W r poly ini xorout = (e.config W r poly ini xorout).withHistory rs := by
  unfold Engine.config
  split
  · simp only [Engine.refuseInvalidWidth, Engine.withHistory, List.append_assoc]
    rfl
  · exact (e.configure _).withHistory_respondOk rs 0

theorem Engine.withHistory_whenConfigured {k k' : Engine N} (hk : k' = k.withHistory rs) :
    (e.withHistory rs).whenConfigured k' = (e.whenConfigured k).withHistory rs := by
  cases hv : e.cfgValid with
  | true => rw [Engine.whenConfigured_of_valid hv, Engine.whenConfigured_of_valid (e := e.withHistory rs) hv, hk]
  | false =>
    rw [Engine.whenConfigured_of_not_valid hv, Engine.whenConfigured_of_not_valid (e := e.withHistory rs) hv,
      e.withHistory_raise]

theorem Engine.withHistory_withChannel (ch : BitVec 4) {k k' : Channel N → Engine N}
    (hk : ∀ c, k' c = (k c).withHistory rs) :
    (e.withHistory rs).withChannel ch k' = (e.withChannel ch k).withHistory rs := by
  have hch : (e.withHistory rs).channel? ch = e.channel? ch := rfl
  rw [Engine.withChannel, Engine.withChannel, hch]
  cases e.channel? ch with
  | none => exact e.withHistory_raise rs .badChannel
  | some c => exact e.withHistory_whenConfigured rs (hk c)

theorem Engine.withHistory_effect (i : Instr) : (e.withHistory rs).effect i = (e.effect i).withHistory rs := by
  cases i with
  | config w r poly ini xorout => exact e.withHistory_config rs _ r _ _ _
  | init ch =>
    exact e.withHistory_withChannel rs ch fun _ => (e.setChannel ch e.desc.freshChannel).withHistory_respondOk rs 0
  | update ch data => exact e.withHistory_withChannel rs ch fun c => e.withHistory_storeAndFinish rs ch _
  | updateBits ch bits k =>
    refine e.withHistory_withChannel rs ch fun c => ?_
    have hdesc : (e.withHistory rs).desc = e.desc := rfl
    rw [hdesc, e.withHistory_raise, e.withHistory_raise, e.withHistory_storeAndFinish]
    split
    · rfl
    · split <;> rfl
  | finish ch => exact e.withHistory_withChannel rs ch fun c => e.withHistory_respondOk rs _
  | tableRead idx => exact e.withHistory_whenConfigured rs (e.withHistory_respondOk rs _)

theorem Engine.withHistory_run1 (i : Instr) : (e.withHistory rs).run1 i = (e.run1 i).withHistory rs := by
  cases hr : e.refused with
  | true => rw [Engine.run1_of_refused hr, Engine.run1_of_refused (e := e.withHistory rs) hr, e.withHistory_noMeaning]
  | false => rw [Engine.run1_of_not_refused hr, Engine.run1_of_not_refused (e := e.withHistory rs) hr, e.withHistory_effect]

end

theorem Engine.withHistory_runs (e : Engine N) (rs : List (Response N)) (is : List Instr) :
    (e.withHistory rs).runs is = (e.runs is).withHistory rs := by
  induction is generalizing e with
  | nil => rfl
  | cons i is ih => rw [Engine.runs_cons, e.withHistory_run1, ih, Engine.runs_cons]

/-- The engine with an empty response stream. -/
def Engine.withoutHistory (e : Engine N) : Engine N := { e with responses := [] }

theorem Engine.withHistory_withoutHistory (e : Engine N) : e.withoutHistory.withHistory e.responses = e := by
  rw [Engine.withHistory, Engine.withoutHistory, List.append_nil]

/-- A run is the run from the empty stream, with the stream put in front. -/
theorem Engine.runs_eq_withHistory (e : Engine N) (is : List Instr) :
    e.runs is = (e.withoutHistory.runs is).withHistory e.responses := by
  rw [← Engine.withHistory_runs, e.withHistory_withoutHistory]

/-! ### The obligations -/

/-- Settles O40: INIT stores the fresh channel and responds 0. -/
theorem initLoadsOneChannel : Obligations.InitLoadsOneChannel := by
  intro n e ch h hch
  obtain ⟨c, hc⟩ := Engine.channel?_isSome_of_lt hch
  rw [exec_eq, run1_init h hc]
  rfl

/-- Settles O41: FINISH responds `Descriptor.fin`, which is the value written out. -/
theorem finishReportsFin : Obligations.FinishReportsFin := by
  intro n e ch c h hc fin
  rw [exec_eq, run1_finish h hc, fin_eq_ite]
  rfl

/-- Settles O43: both runs are the run from an empty stream, with the stream before and with the reader's response behind it. -/
theorem readersChangeNoLaterResponse : Obligations.ReadersChangeNoLaterResponse := by
  intro n e reader is h hreader
  obtain ⟨v, hv⟩ := Engine.run1_reader h hreader
  have ha := e.runs_eq_withHistory is
  have hb : e.runs (reader :: is) = (e.withoutHistory.runs is).withHistory (e.responses ++ [⟨codeOk, v⟩]) := by
    rw [Engine.runs_cons, hv]
    exact (e.respondOk v).runs_eq_withHistory is
  refine ⟨_, _, ⟨codeOk, v⟩, _, execAll_eq is n e, execAll_eq _ n e, congrArg Engine.responses ha, ?_, ?_⟩
  · rw [hb]
    exact List.append_assoc ..
  · rw [ha, hb]
    rfl

/-- Settles O44: the one value is FIN of the channel. -/
theorem repeatedFinishGivesOneValue : Obligations.RepeatedFinishGivesOneValue := by
  intro n e ch m h hch
  obtain ⟨c, hc⟩ := Engine.channel?_isSome_of_lt hch
  refine ⟨e.desc.fin c, ?_⟩
  rw [execAll_eq, Engine.runs_replicate_finish h hc]
  rfl

/-- Settles O46: a channel of a legal configuration is legal, and FIN of a legal channel has XOROUT's bits from `W` on. -/
theorem finKeepsHighXoroutBits : Obligations.FinKeepsHighXoroutBits := by
  intro n e c j hlegal hc hj
  obtain ⟨-, hchannels⟩ := hlegal
  exact fin_getLsbD_of_width_le (hchannels c hc) hj

end Sys2Proof.Machine

/-!
PROOFS. TABLE_READ (spec/44_table_read.md R220).
-/

namespace Sys2Proof.Machine

/-- Settles O42: an accepted TABLE_READ only responds, with `Descriptor.entry`, which is the stored entry written out. -/
theorem tableReadReportsTheEntry : Obligations.TableReadReportsTheEntry := by
  intro n e idx h
  rw [exec_eq, run1_tableRead h]
  rfl

end Sys2Proof.Machine

/-!
PROOFS. Waiting and rejection (spec/60_exceptions.md). `Engine.failing` names the first check on the engine's state that a command
fails, and `Engine.verdict` puts the decoder's checks before them, in the order of R237; a command that fails one is one
`Engine.raise`, and every other is accepted. That a rejection leaves no trace is a law about runs: no command looks at ERR or
CAUSE but to write them, and the response stream is only lengthened.
-/

namespace Sys2Proof

/-! ### The reserved bits of a header -/

/-- A header cut to the bits of one field. -/
theorem and_placeField_allOnes {lo n : Nat} (h : Header) :
    h &&& placeField lo (BitVec.allOnes n) = placeField lo (headerField lo n h) := by
  refine BitVec.eq_of_getLsbD_eq fun j hj => ?_
  rw [BitVec.getLsbD_and, getLsbD_placeField, getLsbD_placeField, BitVec.getLsbD_allOnes, headerField,
    BitVec.getLsbD_extractLsb']
  by_cases hlo : lo ≤ j
  · rw [Nat.add_sub_cancel' hlo]
    ac_rfl
  · simp [Nat.lt_of_not_le hlo]

/-- A field is 0 where its mask finds no bit. -/
theorem and_placeField_allOnes_eq_zero_iff {lo n : Nat} (hlo : lo + n ≤ 32) (h : Header) :
    h &&& placeField lo (BitVec.allOnes n) = 0 ↔ headerField lo n h = 0 := by
  rw [and_placeField_allOnes]
  constructor
  · intro hplace
    rw [← headerField_placeField_self hlo (headerField lo n h), hplace]
    exact BitVec.extractLsb'_zero
  · intro hfield
    simp [hfield, placeField]

theorem and_or_eq_zero_iff (h a b : Header) : h &&& (a ||| b) = 0 ↔ h &&& a = 0 ∧ h &&& b = 0 := by
  rw [BitVec.and_or_distrib_left]
  exact BitVec.or_eq_zero_iff

/-- Format C reserves 31:17 and 7:4 (spec/30_encoding.md R94). -/
theorem and_reservedC_eq_zero_iff (h : Header) :
    h &&& reservedC = 0 ↔ headerField 17 15 h = 0 ∧ headerField 4 4 h = 0 := by
  rw [show reservedC = placeField 17 (BitVec.allOnes 15) ||| placeField 4 (BitVec.allOnes 4) by decide,
    and_or_eq_zero_iff, and_placeField_allOnes_eq_zero_iff (by decide), and_placeField_allOnes_eq_zero_iff (by decide)]

/-- Format H reserves 31:8 (spec/30_encoding.md R95). -/
theorem and_reservedH_eq_zero_iff (h : Header) : h &&& reservedH = 0 ↔ headerField 8 24 h = 0 := by
  rw [show reservedH = placeField 8 (BitVec.allOnes 24) by decide, and_placeField_allOnes_eq_zero_iff (by decide)]

/-- Format B reserves 31:20 (spec/30_encoding.md R97). -/
theorem and_reservedB_eq_zero_iff (h : Header) : h &&& reservedB = 0 ↔ headerField 20 12 h = 0 := by
  rw [show reservedB = placeField 20 (BitVec.allOnes 12) by decide, and_placeField_allOnes_eq_zero_iff (by decide)]

/-- Format T reserves 31:16 and 7:4 (spec/30_encoding.md R98). -/
theorem and_reservedT_eq_zero_iff (h : Header) :
    h &&& reservedT = 0 ↔ headerField 16 16 h = 0 ∧ headerField 4 4 h = 0 := by
  rw [show reservedT = placeField 16 (BitVec.allOnes 16) ||| placeField 4 (BitVec.allOnes 4) by decide,
    and_or_eq_zero_iff, and_placeField_allOnes_eq_zero_iff (by decide), and_placeField_allOnes_eq_zero_iff (by decide)]

/-! ### What the decoder makes of a header -/

/-- OP is reserved (spec/60_exceptions.md R232). -/
def ReservedOp (h : Header) : Prop := headerOp h = 0 ∨ 7 ≤ (headerOp h).toNat

/-- A reserved bit of the format that OP chooses is 1 (spec/60_exceptions.md R233(a)). -/
def ReservedBit (h : Header) : Prop :=
  (headerOp h = opConfig ∧ (headerField 17 15 h ≠ 0 ∨ headerField 4 4 h ≠ 0)) ∨
  ((headerOp h = opInit ∨ headerOp h = opFinish) ∧ headerField 8 24 h ≠ 0) ∨
  (headerOp h = opUpdateBits ∧ headerField 20 12 h ≠ 0) ∨
  (headerOp h = opTableRead ∧ (headerField 16 16 h ≠ 0 ∨ headerField 4 4 h ≠ 0))

/-- The command has the opcode and the fields of the header. -/
inductive ReadFrom (h : Header) : Instr → Prop
  | config (hop : headerOp h = opConfig) (poly ini xorout : BitVec maxWidth) :
    ReadFrom h (.config (headerByte h) (headerReflect h) poly ini xorout)
  | init (hop : headerOp h = opInit) : ReadFrom h (.init (headerCh h))
  | update (hop : headerOp h = opUpdate) (data : List Byte) : ReadFrom h (.update (headerCh h) data)
  | updateBits (hop : headerOp h = opUpdateBits) : ReadFrom h (.updateBits (headerCh h) (headerByte h) (headerK h))
  | finish (hop : headerOp h = opFinish) : ReadFrom h (.finish (headerCh h))
  | tableRead (hop : headerOp h = opTableRead) : ReadFrom h (.tableRead (headerByte h))

section

variable {h : Header} {ops : List (BitVec maxWidth)} {bs : List Byte} {i : Instr}

theorem opcode_values :
    opConfig = 1 ∧ opInit = 2 ∧ opUpdate = 3 ∧ opUpdateBits = 4 ∧ opFinish = 5 ∧ opTableRead = 6 := by
  decide

/-- Every opcode is reserved or a command's (spec/30_encoding.md R91). -/
theorem opcode_cases (op : BitVec 4) :
    (op = 0 ∨ 7 ≤ op.toNat) ∨ op = opConfig ∨ op = opInit ∨ op = opUpdate ∨ op = opUpdateBits ∨ op = opFinish ∨
      op = opTableRead := by
  revert op
  decide

theorem ReservedOp.ne {op : BitVec 4} (hres : ReservedOp h) (hop : op ≠ 0 ∧ op.toNat < 7) : headerOp h ≠ op := by
  rintro rfl
  obtain ⟨hne, hlt⟩ := hop
  rcases hres with h0 | h7
  · exact hne h0
  · omega

theorem decode_of_reservedOp (hres : ReservedOp h) : decode h ops bs = .rejected .illegalOp := by
  unfold decode
  rw [if_neg (hres.ne (by decide)), if_neg (hres.ne (by decide)), if_neg (hres.ne (by decide)),
    if_neg (hres.ne (by decide)), if_neg (hres.ne (by decide)), if_neg (hres.ne (by decide))]

theorem payloadOperands_of_opConfig (hop : headerOp h = opConfig) : payloadOperands h = 3 := if_pos hop

theorem payloadBytes_of_opConfig (hop : headerOp h = opConfig) : payloadBytes h = 0 :=
  if_neg (hop ▸ by decide)

theorem payloadOperands_of_reservedOp (hres : ReservedOp h) : payloadOperands h = 0 := if_neg (hres.ne (by decide))

theorem payloadBytes_of_reservedOp (hres : ReservedOp h) : payloadBytes h = 0 := if_neg (hres.ne (by decide))

/-- A CONFIG whose three beats are at hand. -/
theorem decode_of_opConfig_complete (hop : headerOp h = opConfig) (hops : 3 ≤ ops.length) :
    ∃ poly ini xorout, decode h ops bs =
      unlessReserved reservedC h (.config (headerByte h) (headerReflect h) poly ini xorout) :=
  match ops, hops with
  | poly :: ini :: xorout :: ops, _ => ⟨poly, ini, xorout, decode_of_opConfig ops bs hop poly ini xorout⟩

/-- A CONFIG whose three beats are at hand and one of whose reserved bits is 1 (spec/60_exceptions.md R233(a)). -/
theorem decode_of_malformedConfig (hop : headerOp h = opConfig) (hbit : headerField 17 15 h ≠ 0 ∨ headerField 4 4 h ≠ 0)
    (hops : 3 ≤ ops.length) : decode h ops bs = .rejected .reservedField := by
  obtain ⟨poly, ini, xorout, hd⟩ := decode_of_opConfig_complete (bs := bs) hop hops
  refine hd.trans (if_neg fun h0 => ?_)
  obtain ⟨hhigh, hlow⟩ := (and_reservedC_eq_zero_iff h).mp h0
  exact hbit.elim (· hhigh) (· hlow)

/-- With its payload complete a header of no reserved OP is the command of its fields, unless one of that command's reserved bits
is 1. -/
theorem decode_of_not_reservedOp (hop : ¬ ReservedOp h) (hops : payloadOperands h ≤ ops.length)
    (hbs : bs.length = payloadBytes h) : ∃ i, ReadFrom h i ∧ decode h ops bs = unlessReserved (reservedOf i) h i := by
  rcases opcode_cases (headerOp h) with hres | hop | hop | hop | hop | hop | hop
  · exact absurd hres hop
  · rw [payloadOperands_of_opConfig hop] at hops
    obtain ⟨poly, ini, xorout, hd⟩ := decode_of_opConfig_complete (bs := bs) hop hops
    exact ⟨_, .config hop poly ini xorout, hd⟩
  · exact ⟨_, .init hop, decode_of_opInit ops bs hop⟩
  · exact ⟨_, .update hop bs, (decode_of_opUpdate ops bs hop hbs).trans (if_pos BitVec.and_zero).symm⟩
  · exact ⟨_, .updateBits hop, decode_of_opUpdateBits ops bs hop⟩
  · exact ⟨_, .finish hop, decode_of_opFinish ops bs hop⟩
  · exact ⟨_, .tableRead hop, decode_of_opTableRead ops bs hop⟩

theorem ReadFrom.and_reservedOf_eq_zero_iff (hi : ReadFrom h i) : h &&& reservedOf i = 0 ↔ ¬ ReservedBit h := by
  cases hi with
  | config hop poly ini xorout =>
    simpa [ReservedBit, hop, reservedOf, opcode_values] using and_reservedC_eq_zero_iff h
  | init hop =>
    simpa [ReservedBit, hop, reservedOf, opcode_values] using and_reservedH_eq_zero_iff h
  | update hop data =>
    simp [ReservedBit, hop, reservedOf, opcode_values]
  | updateBits hop =>
    simpa [ReservedBit, hop, reservedOf, opcode_values] using and_reservedB_eq_zero_iff h
  | finish hop =>
    simpa [ReservedBit, hop, reservedOf, opcode_values] using and_reservedH_eq_zero_iff h
  | tableRead hop =>
    simpa [ReservedBit, hop, reservedOf, opcode_values] using and_reservedT_eq_zero_iff h

theorem decode_of_reservedBit (hop : ¬ ReservedOp h) (hbit : ReservedBit h) (hops : payloadOperands h ≤ ops.length)
    (hbs : bs.length = payloadBytes h) : decode h ops bs = .rejected .reservedField := by
  obtain ⟨i, hi, hd⟩ := decode_of_not_reservedOp hop hops hbs
  exact hd.trans (if_neg fun h0 => hi.and_reservedOf_eq_zero_iff.mp h0 hbit)

theorem decode_of_wellFormed (hop : ¬ ReservedOp h) (hbit : ¬ ReservedBit h) (hops : payloadOperands h ≤ ops.length)
    (hbs : bs.length = payloadBytes h) : ∃ i, ReadFrom h i ∧ decode h ops bs = .command i := by
  obtain ⟨i, hi, hd⟩ := decode_of_not_reservedOp hop hops hbs
  exact ⟨i, hi, hd.trans (if_pos (hi.and_reservedOf_eq_zero_iff.mpr hbit))⟩

end

namespace Machine

variable {N : Nat} {e : Engine N} {h : Header} {rest : List Header} {i : Instr} {c : Cause} {ch : BitVec 4}

/-! ### What a verdict makes of the engine -/

/-- `e'` is what the verdict makes of `e`: a rejection with the cause that is given, or, where none is, any engine with one more
response of code OK, and with ERR and CAUSE as they were. -/
inductive Engine.Judged (e : Engine N) : Option Cause → Engine N → Prop
  | rejected (c : Cause) : e.Judged (some c) (e.raise c)
  | accepted {e' : Engine N} (v : BitVec N) (hrsp : e'.responses = e.responses ++ [⟨codeOk, v⟩]) (herr : e'.err = e.err)
    (hcause : e'.cause = e.cause) : e.Judged none e'

/-- The code of the response under a verdict (spec/60_exceptions.md R231). -/
def answerCode : Option Cause → BitVec 4
  | none => codeOk
  | some c => causeCode c

theorem answerCode_eq_codeOk_iff {o : Option Cause} : answerCode o = codeOk ↔ o = none := by
  cases o with
  | none => exact ⟨fun _ => rfl, fun _ => rfl⟩
  | some c => exact ⟨fun h => absurd h (causeCode_ne_codeOk c), nofun⟩

section

variable {o : Option Cause} {e' : Engine N}

/-- Under either verdict there is one response, and all that a nonzero code does is in it and in STATUS
(spec/60_exceptions.md R236). -/
theorem Engine.Judged.response (h : e.Judged o e') :
    ∃ v, e'.responses = e.responses ++ [⟨answerCode o, v⟩] ∧
      (answerCode o ≠ 0 → v = 0 ∧ e' = { e with
        err := true
        cause := if e.err then e.cause else answerCode o
        responses := e.responses ++ [⟨answerCode o, 0⟩] }) := by
  cases h with
  | rejected c => exact ⟨0, rfl, fun _ => ⟨rfl, rfl⟩⟩
  | accepted v hrsp => exact ⟨v, hrsp, fun h => absurd rfl h⟩

theorem Engine.Judged.eq_raise_of_some (h : e.Judged o e') (ho : o = some c) : e' = e.raise c := by
  cases h with
  | rejected => cases ho; rfl
  | accepted => exact nomatch ho

theorem Engine.Judged.status_of_none (h : e.Judged o e') (ho : o = none) : e'.err = e.err ∧ e'.cause = e.cause := by
  cases h with
  | rejected => exact nomatch ho
  | accepted v hrsp herr hcause => exact ⟨herr, hcause⟩

/-- A response with a nonzero code comes from a rejection. -/
theorem Engine.Judged.eq_raise (h : e.Judged o e') {code : BitVec 4} {v : BitVec N}
    (hrsp : e'.responses = e.responses ++ [⟨code, v⟩]) (hcode : code ≠ 0) : ∃ c, e' = e.raise c := by
  cases h with
  | rejected c => exact ⟨c, rfl⟩
  | accepted v' hok =>
    have hlast := List.append_cancel_left (hrsp.symm.trans hok)
    cases hlast
    exact absurd rfl hcode

end

/-! ### The checks that read the engine's state -/

/-- The check for NOT_CONFIGURED (spec/60_exceptions.md R234), and then what else fails. -/
def Engine.configFailing (e : Engine N) (o : Option Cause) : Option Cause :=
  if e.cfgValid then o else some .notConfigured

/-- The checks of a command on channel `ch`, and then what else fails (spec/60_exceptions.md R237). -/
def Engine.channelFailing (e : Engine N) (ch : BitVec 4) (o : Option Cause) : Option Cause :=
  if e.nacc ≤ ch.toNat then some .badChannel else e.configFailing o

/-- The preconditions of UPDATE_BITS in their order (spec/42_update_bits.md R181). -/
def Engine.bitsFailing (e : Engine N) (k : BitVec 4) : Option Cause :=
  if e.desc.reflect then some .precondReflect else if 8 ≤ k.toNat then some .precondOffset else none

/-- The first check of a command that fails, of those that read the engine's state (spec/60_exceptions.md R237). -/
def Engine.failing (e : Engine N) : Instr → Option Cause
  | .config _ _ _ _ _ => none
  | .init ch => e.channelFailing ch none
  | .update ch _ => e.channelFailing ch none
  | .updateBits ch _ k => e.channelFailing ch (e.bitsFailing k)
  | .finish ch => e.channelFailing ch none
  | .tableRead _ => e.configFailing none

theorem Engine.configFailing_of_not_valid (hv : e.cfgValid = false) (o : Option Cause) :
    e.configFailing o = some .notConfigured := by
  rw [Engine.configFailing, hv, if_neg Bool.false_ne_true]

theorem Engine.channelFailing_of_not_valid (hch : ch.toNat < e.nacc) (hv : e.cfgValid = false) (o : Option Cause) :
    e.channelFailing ch o = some .notConfigured := by
  rw [Engine.channelFailing, if_neg (Nat.not_le.mpr hch), Engine.configFailing_of_not_valid hv]

theorem Engine.Judged.respondOk (e : Engine N) (v : BitVec N) : e.Judged none (e.respondOk v) :=
  .accepted v rfl rfl rfl

theorem Engine.Judged.storeAndRespond (e : Engine N) (ch : BitVec 4) (c : Channel N) (v : BitVec N) :
    e.Judged none ((e.setChannel ch c).respondOk v) :=
  .accepted v rfl rfl rfl

theorem Engine.Judged.whenConfigured {o : Option Cause} {e' : Engine N} (h : e.Judged o e') :
    e.Judged (e.configFailing o) (e.whenConfigured e') := by
  unfold Engine.configFailing Engine.whenConfigured
  split
  · exact h
  · exact .rejected .notConfigured

theorem Engine.Judged.withChannel {o : Option Cause} {k : Channel N → Engine N} (hk : ∀ c, e.Judged o (k c)) :
    e.Judged (e.channelFailing ch o) (e.withChannel ch k) := by
  unfold Engine.channelFailing
  split
  · next hle =>
    rw [Engine.withChannel_of_le hle]
    exact .rejected .badChannel
  · next hlt =>
    obtain ⟨c, hc⟩ := Engine.channel?_isSome_of_lt (Nat.lt_of_not_le hlt)
    rw [Engine.withChannel, hc]
    exact (hk c).whenConfigured

theorem Engine.Judged.config (e : Engine N) (W : Nat) (r : Bool) (poly ini xorout : BitVec N) :
    e.Judged none (e.config W r poly ini xorout) := by
  unfold Engine.config
  split <;> exact .accepted _ rfl rfl rfl

theorem Engine.Judged.updateBits (e : Engine N) (ch : BitVec 4) (bits : Byte) (k : BitVec 4) :
    e.Judged (e.channelFailing ch (e.bitsFailing k)) (e.updateBits ch bits k) := by
  refine .withChannel fun c => ?_
  unfold Engine.bitsFailing
  split
  · exact .rejected .precondReflect
  · split
    · exact .rejected .precondOffset
    · exact .storeAndRespond e ch _ _

/-- Every command runs its checks in their order, and is accepted where none fails (spec/60_exceptions.md R237). -/
theorem Engine.effect_judged (e : Engine N) (i : Instr) : e.Judged (e.failing i) (e.effect i) := by
  cases i with
  | config w r poly ini xorout => exact .config e ..
  | init ch => exact .withChannel fun _ => .storeAndRespond e ch _ 0
  | update ch data => exact .withChannel fun _ => .storeAndRespond e ch _ _
  | updateBits ch bits k => exact .updateBits e ch bits k
  | finish ch => exact .withChannel fun _ => .respondOk e _
  | tableRead idx => exact .whenConfigured (.respondOk e _)

theorem Engine.run1_judged (hrefused : e.refused = false) (i : Instr) : e.Judged (e.failing i) (e.run1 i) :=
  Engine.run1_of_not_refused hrefused i ▸ e.effect_judged i

theorem exec_of_failing {n : StorageWidth} {e : Engine n.bits} (hrefused : e.refused = false) (hf : e.failing i = some c) :
    exec i ⟨n, e⟩ = .next ⟨n, e.raise c⟩ := by
  rw [exec_eq, (Engine.run1_judged hrefused i).eq_raise_of_some hf]

/-! ### The checks on a header whose payload has arrived -/

/-- What the decoder makes of the header `h` with the payload at the head of the lanes. -/
def Engine.decodeHead (e : Engine N) (h : Header) : Decoded :=
  decode h (widenBeats (e.operandLane.take (payloadOperands h))) (e.byteLane.take (payloadBytes h))

/-- The engine with the header `h` and its payload taken. -/
def Engine.takeHead (e : Engine N) (h : Header) (rest : List Header) : Engine N :=
  { e with
    commandLane := rest
    operandLane := e.operandLane.drop (payloadOperands h)
    byteLane := e.byteLane.drop (payloadBytes h) }

/-- The first check that fails: the decoder's, then the command's own (spec/60_exceptions.md R237). -/
def Engine.verdict (e : Engine N) : Decoded → Option Cause
  | .incomplete => none
  | .rejected c => some c
  | .command i => e.failing i

/-- The checks read nothing of the ports. -/
theorem Engine.takeHead_failing (e : Engine N) (h : Header) (rest : List Header) (i : Instr) :
    (e.takeHead h rest).failing i = e.failing i := by
  cases i <;> rfl

section

variable (hr : e.resetLine = false) (hf : e.flight = none) (hc : e.commandLane = h :: rest)
  (hops : payloadOperands h ≤ e.operandLane.length) (hbytes : payloadBytes h ≤ e.byteLane.length)

include hr hf hc hops hbytes

/-- A header whose payload has arrived is rejected by the decoder, or is a command that the step runs. -/
theorem Engine.next_takeHead :
    (∃ c, e.decodeHead h = .rejected c ∧ e.next = (e.takeHead h rest).perform fun e => e.raise c) ∨
      ∃ i, e.decodeHead h = .command i ∧ e.next = (e.takeHead h rest).run1 i := by
  have hnext := next_of_head hr hf hc hops hbytes
  rwa [Engine.withPorts_none hf] at hnext

/-- The step that takes a header with its payload does what the first failing check says (spec/60_exceptions.md R237). -/
theorem Engine.next_judged (hrefused : e.refused = false) :
    (e.takeHead h rest).Judged (e.verdict (e.decodeHead h)) e.next := by
  rcases Engine.next_takeHead hr hf hc hops hbytes with ⟨c, hd, hnext⟩ | ⟨i, hd, hnext⟩ <;> rw [hd, hnext]
  · rw [Engine.perform_of_not_refused (e := e.takeHead h rest) hrefused]
    exact .rejected c
  · rw [Engine.verdict, ← e.takeHead_failing h rest]
    exact Engine.run1_judged (e := e.takeHead h rest) hrefused i

/-- Where no check fails there is a command. -/
theorem Engine.exists_command_of_verdict (hv : e.verdict (e.decodeHead h) = none) : ∃ i, e.decodeHead h = .command i := by
  rcases Engine.next_takeHead hr hf hc hops hbytes with ⟨c, hd, -⟩ | ⟨i, hd, -⟩
  · rw [hd] at hv
    exact nomatch hv
  · exact ⟨i, hd⟩

end

/-! ### The code of the first failing check -/

@[simp] theorem answerCode_none : answerCode none = 0 := rfl

theorem answerCode_configFailing (e : Engine N) (o : Option Cause) :
    answerCode (e.configFailing o) = if e.cfgValid = false then 4 else answerCode o := by
  unfold Engine.configFailing
  cases e.cfgValid <;> rfl

theorem answerCode_channelFailing (e : Engine N) (ch : BitVec 4) (o : Option Cause) :
    answerCode (e.channelFailing ch o) =
      if e.nacc ≤ ch.toNat then 3 else if e.cfgValid = false then 4 else answerCode o := by
  rw [← answerCode_configFailing]
  unfold Engine.channelFailing
  split <;> rfl

theorem answerCode_bitsFailing (e : Engine N) (k : BitVec 4) :
    answerCode (e.bitsFailing k) = if e.desc.reflect = true then 5 else if 8 ≤ k.toNat then 6 else 0 := by
  unfold Engine.bitsFailing
  split
  · rfl
  · split <;> rfl

/-- The code of a well-formed command, by the fields of its header (spec/60_exceptions.md R237). -/
theorem answerCode_failing (hi : ReadFrom h i) (e : Engine N) :
    answerCode (e.failing i) =
      if (headerOp h = opInit ∨ headerOp h = opUpdate ∨ headerOp h = opUpdateBits ∨ headerOp h = opFinish) ∧
          e.nacc ≤ (headerCh h).toNat then 3
      else if headerOp h ≠ opConfig ∧ e.cfgValid = false then 4
      else if headerOp h = opUpdateBits ∧ e.desc.reflect = true then 5
      else if headerOp h = opUpdateBits ∧ 8 ≤ (headerK h).toNat then 6
      else 0 := by
  cases hi with
  | config hop poly ini xorout =>
    simp [Engine.failing, hop, opcode_values]
  | init hop =>
    simp [Engine.failing, hop, answerCode_channelFailing, opcode_values]
  | update hop data =>
    simp [Engine.failing, hop, answerCode_channelFailing, opcode_values]
  | updateBits hop =>
    simp [Engine.failing, hop, answerCode_channelFailing, answerCode_bitsFailing, opcode_values]
  | finish hop =>
    simp [Engine.failing, hop, answerCode_channelFailing, opcode_values]
  | tableRead hop =>
    simp [Engine.failing, hop, answerCode_configFailing, opcode_values]

/-! ### A rejection leaves no trace -/

/-- The engine with ERR and CAUSE cleared. -/
def Engine.withoutStatus (e : Engine N) : Engine N := { e with err := false, cause := 0 }

theorem Engine.responses_eq_of_withoutStatus_eq {a b : Engine N} (h : a.withoutStatus = b.withoutStatus) :
    a.responses = b.responses := by
  have hrs : a.withoutStatus.responses = b.withoutStatus.responses := by rw [h]
  exact hrs

/-- Engines that agree with ERR and CAUSE cleared agree in all but ERR, CAUSE and the stream, whatever responses are put in front
of each. -/
theorem Engine.withHistory_eq_of_withoutStatus_eq {a b : Engine N} (h : a.withoutStatus = b.withoutStatus)
    (rs rs' : List (Response N)) :
    b.withHistory rs' =
      { a.withHistory rs with err := b.err, cause := b.cause, responses := (b.withHistory rs').responses } :=
  calc b.withHistory rs'
    _ = { b.withoutStatus with err := b.err, cause := b.cause, responses := (b.withHistory rs').responses } := rfl
    _ = { a.withoutStatus with err := b.err, cause := b.cause, responses := (b.withHistory rs').responses } := by rw [h]

theorem Engine.withoutStatus_whenConfigured {a b : Engine N} (h : b.withoutStatus = a.withoutStatus) :
    (e.withoutStatus.whenConfigured b).withoutStatus = (e.whenConfigured a).withoutStatus := by
  cases hv : e.cfgValid with
  | true => rwa [Engine.whenConfigured_of_valid hv, Engine.whenConfigured_of_valid (e := e.withoutStatus) hv]
  | false =>
    rw [Engine.whenConfigured_of_not_valid hv, Engine.whenConfigured_of_not_valid (e := e.withoutStatus) hv]
    rfl

theorem Engine.withoutStatus_withChannel {k k' : Channel N → Engine N}
    (hk : ∀ c, (k' c).withoutStatus = (k c).withoutStatus) :
    (e.withoutStatus.withChannel ch k').withoutStatus = (e.withChannel ch k).withoutStatus := by
  have hch : e.withoutStatus.channel? ch = e.channel? ch := rfl
  rw [Engine.withChannel, Engine.withChannel, hch]
  cases e.channel? ch with
  | none => rfl
  | some c => exact Engine.withoutStatus_whenConfigured (hk c)

/-- No command looks at ERR or CAUSE but to write them. -/
theorem Engine.withoutStatus_effect (e : Engine N) (i : Instr) :
    (e.withoutStatus.effect i).withoutStatus = (e.effect i).withoutStatus := by
  cases i with
  | config w r poly ini xorout =>
    simp only [Engine.effect, Engine.config]
    split <;> rfl
  | init ch => exact Engine.withoutStatus_withChannel fun _ => rfl
  | update ch data => exact Engine.withoutStatus_withChannel fun _ => rfl
  | updateBits ch bits k =>
    refine Engine.withoutStatus_withChannel fun c => ?_
    have hd : e.withoutStatus.desc = e.desc := rfl
    rw [hd]
    split
    · rfl
    · split <;> rfl
  | finish ch => exact Engine.withoutStatus_withChannel fun _ => rfl
  | tableRead idx => exact Engine.withoutStatus_whenConfigured rfl

theorem Engine.withoutStatus_run1 (e : Engine N) (i : Instr) :
    (e.withoutStatus.run1 i).withoutStatus = (e.run1 i).withoutStatus := by
  cases hr : e.refused with
  | true =>
    rw [Engine.run1_of_refused hr, Engine.run1_of_refused (e := e.withoutStatus) hr]
    rfl
  | false =>
    rw [Engine.run1_of_not_refused hr, Engine.run1_of_not_refused (e := e.withoutStatus) hr, e.withoutStatus_effect]

theorem Engine.withoutStatus_runs (e : Engine N) (is : List Instr) :
    (e.withoutStatus.runs is).withoutStatus = (e.runs is).withoutStatus := by
  induction is generalizing e with
  | nil => rfl
  | cons i is ih => rw [Engine.runs_cons, ← ih, e.withoutStatus_run1, ih, Engine.runs_cons]

/-- After a rejection any commands do what they would have done without it, but for STATUS and the earlier responses. -/
theorem Engine.withoutStatus_runs_raise (e : Engine N) (c : Cause) (is : List Instr) :
    (e.withoutHistory.runs is).withoutStatus = ((e.raise c).withoutHistory.runs is).withoutStatus := by
  rw [← e.withoutHistory.withoutStatus_runs, ← (e.raise c).withoutHistory.withoutStatus_runs]
  rfl

/-! ### Waiting, and a command in flight -/

theorem Engine.next_of_waiting (hr : e.resetLine = false) (hf : e.flight = none) (hc : e.commandLane = []) :
    e.next = e := by
  simp only [Engine.next, Engine.receive, hr, hf, hc, Bool.false_eq_true, if_false]

/-- A malformed command in flight is rejected when its payload is complete (spec/70_reset_and_hazards.md R271). -/
theorem Engine.next_of_flight_rejected {f : Flight N} (hrefused : e.refused = false) (hr : e.resetLine = false)
    (hf : e.flight = some f)
    (hd : decode f.header (widenBeats (e.filled f).operands) (e.filled f).bytes = .rejected c) :
    e.next = (e.drained f).raise c := by
  simp only [Engine.next, receive_flight hr hf, Engine.gather, hd]
  exact Engine.perform_of_not_refused (e := e.drained f) hrefused

/-! ### The obligations -/

/-- Settles O8: nothing is received, so the engine stays. -/
theorem waitsForTheNextHeader : Obligations.WaitsForTheNextHeader := by
  intro n e hr hf hc
  rw [step_eq, Engine.next_of_waiting hr hf hc]

/-- Settles O9: a step is `Engine.next` in every state. -/
theorem everyStepHasANextState : Obligations.EveryStepHasANextState := fun s =>
  ⟨⟨s.width, s.engine.next⟩, step_eq s.width s.engine⟩

/-- Settles O10: the decoder's verdict is ILLEGAL_OP, and OP calls for no payload. -/
theorem reservedOpIsIllegalWithoutPayload : Obligations.ReservedOpIsIllegalWithoutPayload := by
  intro n e h rest hrefused hr hf hc hop
  have hops : payloadOperands h = 0 := payloadOperands_of_reservedOp hop
  have hbytes : payloadBytes h = 0 := payloadBytes_of_reservedOp hop
  have hd : e.decodeHead h = .rejected .illegalOp := decode_of_reservedOp hop
  have hjudged := Engine.next_judged hr hf hc (hops ▸ Nat.zero_le _) (hbytes ▸ Nat.zero_le _) hrefused
  rw [step_eq, hjudged.eq_raise_of_some (congrArg e.verdict hd), Engine.takeHead, hops, hbytes]
  rfl

/-- Settles O11: the verdict's code is decided by the header's fields, check by check, and the step does what the verdict says. -/
theorem checksRunInTheirOrder : Obligations.ChecksRunInTheirOrder := by
  intro n e h rest hrefused hr hf hc hops hbytes op ch reservedBit invalidWidth
  have hjudged := Engine.next_judged hr hf hc hops hbytes hrefused
  obtain ⟨v, hrsp, hrej⟩ := hjudged.response
  have hbeats : payloadOperands h ≤ (widenBeats (e.operandLane.take (payloadOperands h))).length := by
    rw [widenBeats, List.length_map]
    exact (List.length_take_of_le hops).ge
  have hlen : (e.byteLane.take (payloadBytes h)).length = payloadBytes h := List.length_take_of_le hbytes
  refine ⟨e.next, answerCode (e.verdict (e.decodeHead h)), v, step_eq n e, hrsp,
    fun _ => ⟨fun hop => ?_, fun hop hbit => ?_, fun hop hbit => ?_⟩, fun hcode => ?_, fun hok => ?_⟩
  · have hd : e.decodeHead h = .rejected .illegalOp := decode_of_reservedOp hop
    rw [hd]
    rfl
  · have hd : e.decodeHead h = .rejected .reservedField := decode_of_reservedBit hop hbit hbeats hlen
    rw [hd]
    rfl
  · obtain ⟨i, hi, hd⟩ := decode_of_wellFormed hop hbit hbeats hlen
    have hcode : answerCode (e.verdict (e.decodeHead h)) = _ :=
      (congrArg (fun d => answerCode (e.verdict d)) hd).trans (answerCode_failing hi e)
    rw [hcode]
    refine ⟨fun h3 => if_pos h3, fun h3 => ⟨fun h4 => ?_, fun h4 => ⟨fun h5 => ?_, fun h6 => ?_, fun h0 => ?_⟩⟩⟩
    · exact (if_neg h3).trans (if_pos h4)
    · exact (if_neg h3).trans ((if_neg h4).trans (if_pos h5))
    · obtain ⟨hop4, hreflect, hk⟩ := h6
      have h5 : ¬ (headerOp h = opUpdateBits ∧ e.desc.reflect = true) := by simp [hreflect]
      exact (if_neg h3).trans ((if_neg h4).trans ((if_neg h5).trans (if_pos ⟨hop4, hk⟩)))
    · have h5 : ¬ (headerOp h = opUpdateBits ∧ e.desc.reflect = true) :=
        fun ⟨hop4, hreflect⟩ => h0 ⟨hop4, .inl hreflect⟩
      have h6 : ¬ (headerOp h = opUpdateBits ∧ 8 ≤ (headerK h).toNat) := fun ⟨hop4, hk⟩ => h0 ⟨hop4, .inr hk⟩
      exact (if_neg h3).trans ((if_neg h4).trans ((if_neg h5).trans (if_neg h6)))
  · obtain ⟨hv, hnext⟩ := hrej hcode
    refine ⟨hv, ?_⟩
    rw [hnext]
    exact ⟨rfl, rfl, rfl, rfl, rfl, rfl⟩
  · have hnone := answerCode_eq_codeOk_iff.mp hok
    obtain ⟨herr, hcause⟩ := hjudged.status_of_none hnone
    obtain ⟨i, hd⟩ := Engine.exists_command_of_verdict hr hf hc hops hbytes hnone
    obtain ⟨hruns, -⟩ := stepRunsTheDecodedCommand
    exact ⟨herr, hcause, i, hd, hruns n e h rest i hr hf hc hd⟩

/-- Settles O12: whatever the verdict, a nonzero code comes with `Engine.raise` alone. -/
theorem rejectionWritesStatusOnly : Obligations.RejectionWritesStatusOnly := by
  refine ⟨fun n e i hrefused => ?_, fun n e h rest hrefused hr hf hc hops hbytes => ?_⟩
  · obtain ⟨v, hrsp, hrej⟩ := (Engine.run1_judged hrefused i).response
    exact ⟨_, _, v, exec_eq i n e, hrsp, fun hcode => have ⟨_, he⟩ := hrej hcode; he⟩
  · obtain ⟨v, hrsp, hrej⟩ := (Engine.next_judged hr hf hc hops hbytes hrefused).response
    exact ⟨_, _, v, step_eq n e, hrsp, fun hcode => have ⟨_, he⟩ := hrej hcode; he⟩

/-- Settles O14: the check for NOT_CONFIGURED is the first that fails, and CONFIG has no check to fail. -/
theorem commandsBeforeConfigAreRejected : Obligations.CommandsBeforeConfigAreRejected := by
  intro n e hrefused hv rejected
  refine ⟨fun ch hch => ?_, fun idx => ?_, fun w r poly ini xorout h1 h2 => ?_⟩
  · have hf (o : Option Cause) : e.channelFailing ch o = some .notConfigured :=
      Engine.channelFailing_of_not_valid hch hv o
    exact ⟨exec_of_failing (i := .init ch) hrefused (hf _),
      fun data => exec_of_failing (i := .update ch data) hrefused (hf _),
      fun bits k => exec_of_failing (i := .updateBits ch bits k) hrefused (hf _),
      exec_of_failing (i := .finish ch) hrefused (hf _)⟩
  · exact exec_of_failing (i := .tableRead idx) hrefused (Engine.configFailing_of_not_valid hv none)
  · refine ⟨_, exec_eq _ n e, ?_⟩
    rw [run1_config hrefused h1 h2]
    exact ⟨rfl, rfl⟩

/-- Settles O16: both runs are runs from an empty stream on engines that differ in STATUS alone. -/
theorem rejectedCommandLeavesNoTrace : Obligations.RejectedCommandLeavesNoTrace := by
  intro n e i code value e₁ is hrefused hexec hrsp hcode
  rw [exec_eq] at hexec
  cases hexec
  obtain ⟨c, hc⟩ := (Engine.run1_judged hrefused i).eq_raise hrsp hcode
  have hruns := e.withoutStatus_runs_raise c is
  have hrs := Engine.responses_eq_of_withoutStatus_eq hruns
  refine ⟨_, _, (e.withoutHistory.runs is).responses, execAll_eq is n e, execAll_eq is n _, ?_, ?_, ?_⟩
  · exact congrArg Engine.responses (e.runs_eq_withHistory is)
  · rw [hc, hrs]
    exact congrArg Engine.responses ((e.raise c).runs_eq_withHistory is)
  · rw [hc, e.runs_eq_withHistory is, (e.raise c).runs_eq_withHistory is]
    exact Engine.withHistory_eq_of_withoutStatus_eq hruns e.responses _

/-- Settles O57: the verdict waits for the third beat (O6) and is RESERVED_FIELD then. -/
theorem malformedConfigIsRejectedAtItsLastBeat : Obligations.MalformedConfigIsRejectedAtItsLastBeat := by
  intro n e f hrefused hr hf hop hbit
  have hops : payloadOperands f.header = 3 := payloadOperands_of_opConfig hop
  have hbytes : payloadBytes f.header = 0 := payloadBytes_of_opConfig hop
  refine ⟨fun hlast => ?_, fun hshort => ?_⟩
  · have hbeats : 3 ≤ (widenBeats (e.filled f).operands).length := by
      simp only [widenBeats, Engine.filled, Flight.lacksOperands, hops, List.length_map, List.length_append,
        List.length_take]
      omega
    have hd := decode_of_malformedConfig (bs := (e.filled f).bytes) hop hbit hbeats
    rw [step_eq, Engine.next_of_flight_rejected hrefused hr hf hd, Engine.drained, Flight.lacksOperands,
      Flight.lacksBytes, hops, hbytes, Nat.zero_sub]
    rfl
  · have hstep := inFlightChangesNoState n e f hr hf (.inl (hops ▸ hshort))
    have hall : e.operandLane.length ≤ 3 - f.operands.length := by omega
    rw [hops, hbytes, Nat.zero_sub, List.take_of_length_le hall, List.drop_eq_nil_of_le hall, List.take_zero,
      List.append_nil, List.drop_zero] at hstep
    exact hstep

end Machine
end Sys2Proof

/-!
PROOFS. Reset and hazards (spec/70_reset_and_hazards.md). What STATUS records is kept by every command and cleared by reset alone:
`Engine.KeepsStatus` is followed through the cases of a step. A payload that arrives in two parts: the beats taken with the header
stand in the flight, and `gather` makes the same of them with the rest on the lanes as of the whole payload on the lanes.
-/

namespace Sys2Proof.Machine

variable {N : Nat} {e e' : Engine N}

/-! ### STATUS between resets -/

/-- Nothing that STATUS of `e` records is cleared or overwritten in `e'` (spec/10_state.md R43, R44, R45). -/
def Engine.KeepsStatus (e e' : Engine N) : Prop :=
  (e.cfgValid = true → e'.cfgValid = true) ∧ (e.err = true → e'.err = true ∧ e'.cause = e.cause)

theorem Engine.keepsStatus_of_eq (hv : e'.cfgValid = e.cfgValid) (herr : e'.err = e.err) (hcause : e'.cause = e.cause) :
    e.KeepsStatus e' :=
  ⟨hv.trans, fun h => ⟨herr.trans h, hcause⟩⟩

/-- A second rejection records no cause of its own (spec/60_exceptions.md R236). -/
theorem Engine.keepsStatus_raise (e : Engine N) (c : Cause) : e.KeepsStatus (e.raise c) :=
  ⟨fun hv => hv, fun herr => ⟨rfl, by rw [Engine.raise_cause, if_pos herr]⟩⟩

/-- CONFIG sets CFG_VALID, refused or not, and leaves ERR and CAUSE alone. -/
theorem Engine.keepsStatus_effect (e : Engine N) (i : Instr) : e.KeepsStatus (e.effect i) := by
  rcases e.effect_shape i with ⟨c, h⟩ | h | ⟨_, _, h⟩ | ⟨_, _, _, _, _, h⟩ | ⟨_, h⟩ <;> rw [h]
  · exact e.keepsStatus_raise c
  · exact ⟨fun _ => rfl, fun herr => ⟨herr, rfl⟩⟩
  · exact ⟨fun _ => rfl, fun herr => ⟨herr, rfl⟩⟩
  · exact Engine.keepsStatus_of_eq rfl rfl rfl
  · exact Engine.keepsStatus_of_eq rfl rfl rfl

/-- No step without reset loses anything that STATUS records (spec/70_reset_and_hazards.md R261). -/
theorem Engine.keepsStatus_next (hr : e.resetLine = false) (hrefused : e.refused = false) : e.KeepsStatus e.next := by
  rcases e.next_cases with ⟨hr', _⟩ | ⟨_, h | ⟨_, _, _, _, _, h⟩ | ⟨c, cl, ol, bl, h⟩ | ⟨i, cl, ol, bl, h⟩⟩
  · simp [hr] at hr'
  · rw [h]
    exact Engine.keepsStatus_of_eq rfl rfl rfl
  · rw [h]
    exact Engine.keepsStatus_of_eq rfl rfl rfl
  · rw [h, Engine.perform_of_not_refused (e := e.withPorts none cl ol bl) hrefused]
    exact (e.withPorts none cl ol bl).keepsStatus_raise c
  · rw [h, Engine.run1_of_not_refused (e := e.withPorts none cl ol bl) hrefused]
    exact (e.withPorts none cl ol bl).keepsStatus_effect i

/-! ### A payload in two parts -/

/-- `gather` looks at the command with the beats it finds and at the engine without them. -/
theorem gather_congr {f f' : Flight N} (hfilled : e.filled f = e'.filled f') (hdrained : e.drained f = e'.drained f') :
    e.gather f = e'.gather f' := by
  have hheader : f.header = f'.header := (congrArg Flight.header hfilled :)
  simp only [Engine.gather, hfilled, hdrained, hheader]

/-- Reset is not asserted, nothing is in flight and nothing waits on the lanes. -/
structure Engine.Vacant (e : Engine N) : Prop where
  resetLine : e.resetLine = false
  flight : e.flight = none
  commandLane : e.commandLane = []
  operandLane : e.operandLane = []
  byteLane : e.byteLane = []

/-- On empty lanes the host's words stand alone. -/
theorem Engine.Vacant.hostSend (hv : e.Vacant) (h : Header) (beats : List (BitVec N)) (bytes : List Byte) :
    e.hostSend h beats bytes = e.withPorts none [h] beats bytes := by
  simp only [Engine.hostSend, hv.commandLane, hv.operandLane, hv.byteLane, List.nil_append, ← hv.flight]

/-- On empty lanes the words of a command sent whole stand in front, as when it is presented. -/
theorem Engine.Vacant.hostSend_encode (hv : e.Vacant) (i : Instr) :
    e.hostSend (encode i).header ((encode i).operands.map (laneValue N)) (encode i).bytes = e.presentInstr i := by
  simp only [Engine.hostSend, Engine.presentInstr, Engine.present, hv.commandLane, hv.operandLane, hv.byteLane,
    List.nil_append, List.append_nil, ← hv.flight, ← hv.resetLine]

section

variable {h : Header} {beats₁ beats₂ : List (BitVec N)} {bytes₁ bytes₂ : List Byte}

variable (hops : (beats₁ ++ beats₂).length = payloadOperands h) (hbytes : (bytes₁ ++ bytes₂).length = payloadBytes h)

include hops hbytes

/-- The header with the first part of its payload: all of it is taken, and the command is in flight. -/
theorem gather_first_part (hrest : beats₂ ≠ [] ∨ bytes₂ ≠ []) :
    (e.withPorts none [] beats₁ bytes₁).gather ⟨h, [], []⟩ =
      .idle (e.withPorts (some ⟨h, beats₁, bytes₁⟩) [] [] []) := by
  rw [List.length_append] at hops hbytes
  have hle : beats₁.length ≤ payloadOperands h := by omega
  have hle' : bytes₁.length ≤ payloadBytes h := by omega
  have hshort : beats₁.length < payloadOperands h ∨ bytes₁.length < payloadBytes h := by
    rcases hrest with hne | hne
    · have := List.length_pos_iff.mpr hne
      omega
    · have := List.length_pos_iff.mpr hne
      omega
  rw [gather_of_short (by simpa using hshort)]
  simp [Engine.filled, Engine.drained, Flight.lacksOperands, Flight.lacksBytes, List.take_of_length_le hle,
    List.take_of_length_le hle', List.drop_eq_nil_of_le hle, List.drop_eq_nil_of_le hle']

/-- The second part completes the flight to the same command, and leaves the same engine, as the whole payload at once. -/
theorem gather_second_part :
    (e.withPorts (some ⟨h, beats₁, bytes₁⟩) [] beats₂ bytes₂).gather ⟨h, beats₁, bytes₁⟩ =
      (e.withPorts none [] (beats₁ ++ beats₂) (bytes₁ ++ bytes₂)).gather ⟨h, [], []⟩ := by
  apply gather_congr <;>
    simp [Engine.filled, Engine.drained, Flight.lacksOperands, Flight.lacksBytes, ← hops, ← hbytes]

theorem next_of_first_part (hv : e.Vacant) (hrest : beats₂ ≠ [] ∨ bytes₂ ≠ []) :
    (e.hostSend h beats₁ bytes₁).next = e.withPorts (some ⟨h, beats₁, bytes₁⟩) [] [] [] := by
  have hreceive := receive_head (e := e.withPorts none [h] beats₁ bytes₁) hv.resetLine rfl rfl
  rw [hv.hostSend, Engine.next, hreceive.trans (gather_first_part hops hbytes hrest)]

/-- The last beat has the effect of the whole command, whatever the decoder makes of it (spec/70_reset_and_hazards.md R271). -/
theorem next_of_second_part (hv : e.Vacant) :
    (e.withPorts (some ⟨h, beats₁, bytes₁⟩) [] beats₂ bytes₂).next =
      (e.hostSend h (beats₁ ++ beats₂) (bytes₁ ++ bytes₂)).next := by
  have hsplit := receive_flight (e := e.withPorts (some ⟨h, beats₁, bytes₁⟩) [] beats₂ bytes₂) hv.resetLine rfl
  have hwhole := receive_head (e := e.withPorts none [h] (beats₁ ++ beats₂) (bytes₁ ++ bytes₂)) hv.resetLine rfl rfl
  rw [hv.hostSend, Engine.next, Engine.next, hsplit.trans ((gather_second_part hops hbytes).trans hwhole.symm)]

end

/-! ### The obligations -/

/-- Settles O18: every command keeps what STATUS records, and the step of reset is `Engine.resetNow`. -/
theorem onlyResetClearsStatus : Obligations.OnlyResetClearsStatus := by
  intro n e e' hs
  rw [step_eq] at hs
  cases hs
  refine ⟨Engine.keepsStatus_next, fun hr => ?_⟩
  rw [Engine.next_of_reset hr]
  exact ⟨rfl, rfl, rfl⟩

/-- Settles O7: the second part is received as the whole payload would be; a well-formed command sent whole is one presented (O3). -/
theorem splitPayloadExecutesAtItsLastBeat : Obligations.SplitPayloadExecutesAtItsLastBeat := by
  refine ⟨fun n e i beats₁ beats₂ bytes₁ bytes₂ hi hr hf hcl hol hbl hbeats hbytes hrest => ?_,
    fun n e h beats₁ beats₂ bytes₁ bytes₂ hr hf hcl hol hbl hops hlen hrest => ?_⟩
  · have hv : e.Vacant := ⟨hr, hf, hcl, hol, hbl⟩
    have hops : (beats₁ ++ beats₂).length = payloadOperands (encode i).header := by
      rw [← hbeats, List.length_map, payloadOperands_encode]
    have hlen : (bytes₁ ++ bytes₂).length = payloadBytes (encode i).header := by
      rw [← hbytes, payloadBytes_encode hi]
    have hlast := next_of_second_part hops hlen hv
    rw [← hbeats, ← hbytes, hv.hostSend_encode, Engine.next_presentInstr hi hr hf] at hlast
    refine ⟨_, step_eq n _, ?_⟩
    rw [next_of_first_part hops hlen hv hrest, step_eq, exec_eq, ← hlast]
    rfl
  · have hv : e.Vacant := ⟨hr, hf, hcl, hol, hbl⟩
    refine ⟨_, step_eq n _, ?_⟩
    rw [next_of_first_part hops hlen hv hrest, step_eq, step_eq, ← next_of_second_part hops hlen hv]
    exact ⟨rfl, rfl⟩

end Sys2Proof.Machine
